-- ==== Sys2Proof/Word.lean ====
section
/-! DEFINITION. The word types of LOS-FB (spec/00_scope.md R12, spec/30_encoding.md R91). -/

namespace Sys2Proof

/-- A byte: a framebuffer byte, an 8-bit operand field, a bus byte (R12). Bit 0 is the least
significant bit: PRESUMED, the spec marks LSB-0 as general knowledge (log entry 20). -/
abbrev Byte := BitVec 8

/-- The 32-bit operand V, and STATUSWORD (R91, R37). -/
abbrev Word32 := BitVec 32

/-- The 64-bit operation word (R91). -/
abbrev OpWord := BitVec 64

end Sys2Proof
end

