-- ==== Sys2Proof/Config.lean ====
section
/-! DEFINITION. The implementation parameters of spec/00_scope.md R9. `Params` holds one of each, so that
every shared operation takes the parameters as an argument; `Config.hw` is this hardware, with its
OPEN parameters left as opaque constants, and `Params.reference` is the reference configuration of R10. -/

namespace Sys2Proof

/-- The active font variant (R9 FONT): one per configuration, never mixed. -/
inductive Font where
  | f5x8
  | f12x16
  deriving DecidableEq, Repr, Inhabited

/-- How a fixed-decimal operand is scaled (R9 SCALE_MODE, 41_glyph.md R191). -/
inductive ScaleMode where
  | exact
  | f32Product
  deriving DecidableEq, Repr, Inhabited

/-- The parameters of R9, under the spec's names. `glyph c r j` is GLYPH(c, r, j). `fbReset n i` is byte
`i` of the `n`-th draw of FB_RESET: reset number `n` finds it in the framebuffer (log entry 3). -/
structure Params where
  width : Nat
  height : Nat
  font : Font
  spaceLead : Nat
  spaceTrail : Nat
  firstCode : Nat
  lastCode : Nat
  glyph : Nat → Nat → Nat → Byte
  dividerCode : Nat
  periphAddr : Nat
  ctrlCmd : Byte
  ctrlData : Byte
  scaleMode : ScaleMode
  fbReset : Nat → Nat → Byte

/-- PAGES = HEIGHT / 8 (R9). -/
def Params.pages (p : Params) : Nat := p.height / 8

/-- FB_SIZE = WIDTH * HEIGHT / 8 (R9, R61). -/
def Params.fbSize (p : Params) : Nat := p.width * p.height / 8

/-- FONT_X_SIZE: 5 for FONT_5x8, 12 for FONT_12x16 (R9). -/
def Params.fontXSize (p : Params) : Nat :=
  match p.font with
  | .f5x8 => 5
  | .f12x16 => 12

/-- FONT_PAGES: 1 for FONT_5x8, 2 for FONT_12x16 (R9, D13). -/
def Params.fontPages (p : Params) : Nat :=
  match p.font with
  | .f5x8 => 1
  | .f12x16 => 2

/-- CELL_W = SPACE_LEAD + FONT_X_SIZE + SPACE_TRAIL (R9). -/
def Params.cellW (p : Params) : Nat := p.spaceLead + p.fontXSize + p.spaceTrail

/-- The constraints R9 puts on the parameters. -/
structure Params.Valid (p : Params) : Prop where
  width_pos : 1 ≤ p.width
  width_le : p.width ≤ 256
  height_mul : p.height % 8 = 0
  height_ge : 8 ≤ p.height
  height_le : p.height ≤ 2048
  first_le : p.firstCode ≤ 0x2E
  last_ge : 0x39 ≤ p.lastCode
  last_le : p.lastCode ≤ 0xFF
  divider_ge : p.firstCode ≤ p.dividerCode
  divider_le : p.dividerCode ≤ p.lastCode
  ctrl_ne : p.ctrlCmd ≠ p.ctrlData

/-- FONT is OPEN (R9). -/
opaque Config.font : Font

/-- SPACE_LEAD is OPEN (R9, D13). -/
opaque Config.spaceLead : Nat

/-- SPACE_TRAIL is OPEN (R9, D13). -/
opaque Config.spaceTrail : Nat

/-- FIRST_CODE is OPEN; its type is R9's constraint FIRST_CODE <= 0x2E. -/
opaque Config.firstCode : Fin 0x2F

/-- LAST_CODE is OPEN; this is LAST_CODE - 0x39, so that 0x39 <= LAST_CODE <= 0xFF (R9). -/
opaque Config.lastCodeAboveNine : Fin 0xC7

/-- GLYPH is OPEN: the font bitmaps are not in the source (R9, R32, N3). -/
opaque Config.glyph : Nat → Nat → Nat → Byte

/-- PERIPH_ADDR is OPEN (R9, D17). -/
opaque Config.periphAddr : Nat

/-- CTRL_CMD is OPEN (R9, D17). -/
opaque Config.ctrlCmd : Byte

/-- CTRL_DATA is OPEN and differs from CTRL_CMD (R9, D17): it is CTRL_CMD + 1 + this, modulo 256. -/
opaque Config.ctrlDataGap : Fin 255

/-- SCALE_MODE is OPEN (R9, R191, D11). -/
opaque Config.scaleMode : ScaleMode

/-- FB_RESET is OPEN: "one arbitrary byte per index" (R291, D24), drawn anew at every reset. -/
opaque Config.fbReset : Nat → Nat → Byte

/-- This hardware: WIDTH = 128, HEIGHT = 64 and DIVIDER_CODE = 0x2E (R9); the rest is OPEN (log entry 5). -/
def Config.hw : Params where
  width := 128
  height := 64
  font := Config.font
  spaceLead := Config.spaceLead
  spaceTrail := Config.spaceTrail
  firstCode := Config.firstCode.val
  lastCode := 0x39 + Config.lastCodeAboveNine.val
  glyph := Config.glyph
  dividerCode := 0x2E
  periphAddr := Config.periphAddr
  ctrlCmd := Config.ctrlCmd
  ctrlData := Config.ctrlCmd + BitVec.ofNat 8 (Config.ctrlDataGap.val + 1)
  scaleMode := Config.scaleMode
  fbReset := Config.fbReset

/-- The reference configuration of R10, for any glyph table and the parameters R10 leaves alone. The
scale mode is an argument because the vectors of 95_test_vectors.md name both. -/
def Params.reference (glyph : Nat → Nat → Nat → Byte) (mode : ScaleMode) : Params where
  width := 128
  height := 64
  font := .f5x8
  spaceLead := 0
  spaceTrail := 1
  firstCode := 0x20
  lastCode := 0x7E
  glyph := glyph
  dividerCode := 0x2E
  periphAddr := Config.periphAddr
  ctrlCmd := Config.ctrlCmd
  ctrlData := Config.ctrlCmd + BitVec.ofNat 8 (Config.ctrlDataGap.val + 1)
  scaleMode := mode
  fbReset := Config.fbReset

end Sys2Proof
end

