-- ==== Sys2Proof/Syntax.lean ====
section
/-! DEFINITION. The syntax: one constructor per row of spec/opcode_table.json, the descriptor the host port
takes (spec/30_encoding.md R90), and the pseudo-operations (R106). Boolean operands are decoded to
`Bool` (R94, log entry 13); a field the operation does not use is not held (R98). -/

namespace Sys2Proof

/-- An operation of the host port, or a command byte of the output bus. -/
inductive Instr where
  /-- OP 0x01 INIT (42_panel.md R223). -/
  | init (alsoInitBus inverseVideo : Bool) (contrast precharge : Byte)
  /-- OP 0x02 CLEAR (40_framebuffer.md R131). -/
  | clear
  /-- OP 0x03 CLRRECT (R135). -/
  | clrrect (xFirst xLast pageFirst pageLast : Byte)
  /-- OP 0x04 LOAD (R140); `bitmap` is the payload. -/
  | load (size : Word32) (bitmap : List Byte)
  /-- OP 0x05 SETPX (R150). -/
  | setpx (state : Bool) (x y : Byte)
  /-- OP 0x06 CHAR (41_glyph.md R175). -/
  | char (charCode yPage xSymbol : Byte)
  /-- OP 0x07 STR (R180); `text` is the payload. -/
  | str (length yPage xSymbol : Byte) (text : List Byte)
  /-- OP 0x08 UINT (R185). -/
  | uint (yPage xSymbol digitCount : Byte) (value : Word32)
  /-- OP 0x09 FIX13 (R195). -/
  | fix13 (yPage xSymbol : Byte) (value : Word32)
  /-- OP 0x0A FIX21 (R196). -/
  | fix21 (yPage xSymbol : Byte) (value : Word32)
  /-- OP 0x0B FIX31 (R197). -/
  | fix31 (yPage xSymbol : Byte) (value : Word32)
  /-- OP 0x0C FIX30 (R198). -/
  | fix30 (yPage xSymbol : Byte) (value : Word32)
  /-- OP 0x0D FLUSH (42_panel.md R225). -/
  | flush
  /-- OP 0x00 and 0x0E..0xFF (30_encoding.md R99). -/
  | reserved (op : Byte)
  /-- Command byte 0xAE, init 1 (R103, R222). -/
  | outDisplayOff
  /-- Command byte 0xC8, init 2. -/
  | outScanDirection
  /-- Command byte 0x00, init 3 and 5, and the operand of 0xD3 and of 0x21. -/
  | outAddrGroup00
  /-- Command byte 0x10, init 4. -/
  | outAddrGroup10
  /-- Command byte 0x81, init 6. -/
  | outContrast
  /-- Command byte 0xA1, init 8. -/
  | outSegmentRemap
  /-- Command byte 0xA6 or 0xA7, init 9: bit 0 is inverse_video (R104). -/
  | outNormalInverse (inverse : Bool)
  /-- Command byte 0xA8, init 10. -/
  | outMultiplex
  /-- Command byte 0xA4, init 12. -/
  | outEntireDisplayOn
  /-- Command byte 0xD3, init 13. -/
  | outDisplayOffset
  /-- Command byte 0xD5, init 15. -/
  | outClockDivider
  /-- Command byte 0xD9, init 17. -/
  | outPrecharge
  /-- Command byte 0xDA, init 19. -/
  | outComPins
  /-- Command byte 0xDB, init 21. -/
  | outVcomh
  /-- Command byte 0x8D, init 23. -/
  | outChargePump
  /-- Command byte 0xAF, init 25. -/
  | outDisplayOn
  /-- Command byte 0x21, first of each page of a flush (R224). -/
  | outColumnRange
  /-- Command byte 0x22, fourth of each page of a flush (R224). -/
  | outPageAddress
  deriving DecidableEq, Repr

/-- An operation descriptor `(word, payload)` (R90). -/
structure Descriptor where
  word : OpWord
  payload : List Byte
  deriving DecidableEq, Repr

/-- Where an instruction's bits stand: on the host port as a descriptor (R90), or on the output bus as one
command byte (R103). -/
inductive Encoded where
  | host (d : Descriptor)
  | panel (b : Byte)
  deriving DecidableEq, Repr

/-- The pseudo-operation PSET x, y (R106). -/
def Instr.pset (x y : Byte) : Instr := .setpx true x y

/-- The pseudo-operation PCLR x, y (R106). -/
def Instr.pclr (x y : Byte) : Instr := .setpx false x y

/-- The pseudo-operation CLRPAGE p (R106), for a panel of the given width. -/
def Instr.clrpage (width : Nat) (page : Byte) : Instr :=
  .clrrect 0 (BitVec.ofNat 8 (width - 1)) page page

end Sys2Proof
end

