-- ==== Sys2Proof/WellFormed.lean ====
section
/-! DEFINITION. What an instruction term must satisfy beyond its types: the payload lengths of
spec/30_encoding.md R96 and R100, and the reserved opcodes of R99. -/

namespace Sys2Proof

/-- OP 0x00 or OP >= 0x0E (R95, R99). -/
abbrev isReservedOp (op : Byte) : Prop := op.toNat = 0 ∨ 0x0E ≤ op.toNat

/-- The well-formed instructions: LOAD carries `size` bytes, STR `length` bytes (R96), and a reserved
operation holds a reserved opcode (R99). Every other term of `Instr` is well formed. -/
abbrev WellFormed (i : Instr) : Prop :=
  match i with
  | .load size bitmap => bitmap.length = size.toNat
  | .str length _ _ text => text.length = length.toNat
  | .reserved op => isReservedOp op
  | .init .. | .clear | .clrrect .. | .setpx .. | .char .. | .uint .. => True
  | .fix13 .. | .fix21 .. | .fix31 .. | .fix30 .. | .flush => True
  | .outDisplayOff | .outScanDirection | .outAddrGroup00 | .outAddrGroup10 | .outContrast => True
  | .outSegmentRemap | .outNormalInverse _ | .outMultiplex | .outEntireDisplayOn => True
  | .outDisplayOffset | .outClockDivider | .outPrecharge | .outComPins | .outVcomh => True
  | .outChargePump | .outDisplayOn | .outColumnRange | .outPageAddress => True

end Sys2Proof
end

