-- ==== Sys2Proof/Decode.lean ====
section
/-! DEFINITION. Decoding and encoding. The host port reads a descriptor (spec/30_encoding.md R90 to R100) or the
same on a byte carrier (spec/20_memory.md R68, 30_encoding.md R97); the output bus carries command bytes,
which R103 and the opcode table name. The field numbers and opcodes are the spec's (R91, R95, R96). -/

namespace Sys2Proof

/-! ## The operation word (R91) -/

/-- OP = word[7:0]. -/
def opField (w : OpWord) : Byte := w.extractLsb' 0 8

/-- A = word[15:8]. -/
def aField (w : OpWord) : Byte := w.extractLsb' 8 8

/-- B = word[23:16]. -/
def bField (w : OpWord) : Byte := w.extractLsb' 16 8

/-- C = word[31:24]. -/
def cField (w : OpWord) : Byte := w.extractLsb' 24 8

/-- D = word[39:32], the low byte of V (R92). -/
def dField (w : OpWord) : Byte := w.extractLsb' 32 8

/-- V = word[63:32]. -/
def vField (w : OpWord) : Word32 := w.extractLsb' 32 32

/-- A boolean operand: "true when the field is non-zero and false when it is zero" (R94). -/
def boolField (b : Byte) : Bool := b != 0x00#8

/-- The word with the five fields OP, A, B, C and V (R91). -/
def opWord (op a b c : Byte) (v : Word32) : OpWord := v ++ c ++ b ++ a ++ op

/-- The V field of an operation that uses D: D stands in V[7:0] and the rest is zero (R92). -/
def dOperand (d : Byte) : Word32 := 0#24 ++ d

/-- A boolean operand as a field: true is written 0x01 (log entry 13). -/
def boolOperand (b : Bool) : Byte := if b then 0x01 else 0x00

/-! ## Decoding a descriptor -/

/-- Why bits are no instruction. Only the first can come from a descriptor on the host port. -/
inductive DecodeError where
  /-- The payload's length is not the one the word requires (R100). -/
  | payloadLengthMismatch
  /-- A byte carrier ends inside a descriptor (R97). -/
  | truncated
  /-- A bus byte that is no row of the table's command bytes (R103). -/
  | notCommandByte
  deriving DecidableEq, Repr

/-- The payload length the word requires: V for LOAD, A for STR and 0 for every other opcode (R100). -/
def requiredLength (w : OpWord) : Nat :=
  match (opField w).toNat with
  | 0x04 => (vField w).toNat
  | 0x07 => (aField w).toNat
  | _ => 0

/-- The operation of a word and its payload: OP alone selects it (R95), and each operand is the raw field
R96 names. -/
def decodeFields (w : OpWord) (payload : List Byte) : Instr :=
  match (opField w).toNat with
  | 0x01 => .init (boolField (aField w)) (boolField (bField w)) (cField w) (dField w)
  | 0x02 => .clear
  | 0x03 => .clrrect (aField w) (bField w) (cField w) (dField w)
  | 0x04 => .load (vField w) payload
  | 0x05 => .setpx (boolField (aField w)) (bField w) (cField w)
  | 0x06 => .char (aField w) (bField w) (cField w)
  | 0x07 => .str (aField w) (bField w) (cField w) payload
  | 0x08 => .uint (aField w) (bField w) (cField w) (vField w)
  | 0x09 => .fix13 (aField w) (bField w) (vField w)
  | 0x0A => .fix21 (aField w) (bField w) (vField w)
  | 0x0B => .fix31 (aField w) (bField w) (vField w)
  | 0x0C => .fix30 (aField w) (bField w) (vField w)
  | 0x0D => .flush
  | _ => .reserved (opField w)

/-- Decoding on the host port: the payload length is checked first, for reserved opcodes too (R100, R265). -/
def decodeHost (d : Descriptor) : Except DecodeError Instr :=
  if d.payload.length = requiredLength d.word then .ok (decodeFields d.word d.payload)
  else .error .payloadLengthMismatch

/-- The command byte of the output bus, as the table's rows name it by match and mask (R103, R222, R224). -/
def decodePanel (b : Byte) : Except DecodeError Instr :=
  match b.toNat with
  | 0xAE => .ok .outDisplayOff
  | 0xC8 => .ok .outScanDirection
  | 0x00 => .ok .outAddrGroup00
  | 0x10 => .ok .outAddrGroup10
  | 0x81 => .ok .outContrast
  | 0xA1 => .ok .outSegmentRemap
  | 0xA6 => .ok (.outNormalInverse false)
  | 0xA7 => .ok (.outNormalInverse true)
  | 0xA8 => .ok .outMultiplex
  | 0xA4 => .ok .outEntireDisplayOn
  | 0xD3 => .ok .outDisplayOffset
  | 0xD5 => .ok .outClockDivider
  | 0xD9 => .ok .outPrecharge
  | 0xDA => .ok .outComPins
  | 0xDB => .ok .outVcomh
  | 0x8D => .ok .outChargePump
  | 0xAF => .ok .outDisplayOn
  | 0x21 => .ok .outColumnRange
  | 0x22 => .ok .outPageAddress
  | _ => .error .notCommandByte

/-- Decoding, total on both ports. -/
def decode (e : Encoded) : Except DecodeError Instr :=
  match e with
  | .host d => decodeHost d
  | .panel b => decodePanel b

/-- The bits of the word an opcode uses: OP, and the fields R96 does not mark unused. -/
def usedMask (op : Byte) : OpWord :=
  match op.toNat with
  | 0x01 => 0x000000FFFFFFFFFF
  | 0x03 => 0x000000FFFFFFFFFF
  | 0x04 => 0xFFFFFFFF000000FF
  | 0x05 => 0x00000000FFFFFFFF
  | 0x06 => 0x00000000FFFFFFFF
  | 0x07 => 0x00000000FFFFFFFF
  | 0x08 => 0xFFFFFFFFFFFFFFFF
  | 0x09 => 0xFFFFFFFF00FFFFFF
  | 0x0A => 0xFFFFFFFF00FFFFFF
  | 0x0B => 0xFFFFFFFF00FFFFFF
  | 0x0C => 0xFFFFFFFF00FFFFFF
  | _ => 0x00000000000000FF

/-! ## The byte carrier (R68, R97) -/

/-- The eight bytes of a word, byte 0 first: little-endian (R68). -/
def bytesOfWord (w : OpWord) : List Byte := (List.range 8).map fun k => w.extractLsb' (8 * k) 8

/-- A descriptor as a byte sequence: the word's 8 bytes, then the payload (R68, R97). -/
def Descriptor.bytes (d : Descriptor) : List Byte := bytesOfWord d.word ++ d.payload

/-- Reads one descriptor from the front of a byte sequence and gives the rest back. The word alone names the
total length: 8 bytes plus the payload length (R97). -/
def readDescriptor (bs : List Byte) : Except DecodeError (Descriptor × List Byte) :=
  match bs with
  | b0 :: b1 :: b2 :: b3 :: b4 :: b5 :: b6 :: b7 :: rest =>
    let w : OpWord := b7 ++ b6 ++ b5 ++ b4 ++ b3 ++ b2 ++ b1 ++ b0
    if requiredLength w ≤ rest.length then
      .ok (⟨w, rest.take (requiredLength w)⟩, rest.drop (requiredLength w))
    else .error .truncated
  | _ => .error .truncated

/-- Decoding a byte carrier: the first operation and the bytes after it. -/
def decodeBytes (bs : List Byte) : Except DecodeError (Instr × List Byte) :=
  match readDescriptor bs with
  | .error e => .error e
  | .ok (d, rest) =>
    match decodeHost d with
    | .error e => .error e
    | .ok i => .ok (i, rest)

/-! ## The encoder -/

/-- The bits of an instruction; fields an operation does not use are zero (R105). -/
def encode (i : Instr) : Encoded :=
  match i with
  | .init bus inv contrast precharge =>
    .host ⟨opWord 0x01 (boolOperand bus) (boolOperand inv) contrast (dOperand precharge), []⟩
  | .clear => .host ⟨opWord 0x02 0 0 0 0, []⟩
  | .clrrect xFirst xLast pageFirst pageLast =>
    .host ⟨opWord 0x03 xFirst xLast pageFirst (dOperand pageLast), []⟩
  | .load size bitmap => .host ⟨opWord 0x04 0 0 0 size, bitmap⟩
  | .setpx state x y => .host ⟨opWord 0x05 (boolOperand state) x y 0, []⟩
  | .char charCode yPage xSymbol => .host ⟨opWord 0x06 charCode yPage xSymbol 0, []⟩
  | .str length yPage xSymbol text => .host ⟨opWord 0x07 length yPage xSymbol 0, text⟩
  | .uint yPage xSymbol digitCount value => .host ⟨opWord 0x08 yPage xSymbol digitCount value, []⟩
  | .fix13 yPage xSymbol value => .host ⟨opWord 0x09 yPage xSymbol 0 value, []⟩
  | .fix21 yPage xSymbol value => .host ⟨opWord 0x0A yPage xSymbol 0 value, []⟩
  | .fix31 yPage xSymbol value => .host ⟨opWord 0x0B yPage xSymbol 0 value, []⟩
  | .fix30 yPage xSymbol value => .host ⟨opWord 0x0C yPage xSymbol 0 value, []⟩
  | .flush => .host ⟨opWord 0x0D 0 0 0 0, []⟩
  | .reserved op => .host ⟨opWord op 0 0 0 0, []⟩
  | .outDisplayOff => .panel 0xAE
  | .outScanDirection => .panel 0xC8
  | .outAddrGroup00 => .panel 0x00
  | .outAddrGroup10 => .panel 0x10
  | .outContrast => .panel 0x81
  | .outSegmentRemap => .panel 0xA1
  | .outNormalInverse inverse => .panel (if inverse then 0xA7 else 0xA6)
  | .outMultiplex => .panel 0xA8
  | .outEntireDisplayOn => .panel 0xA4
  | .outDisplayOffset => .panel 0xD3
  | .outClockDivider => .panel 0xD5
  | .outPrecharge => .panel 0xD9
  | .outComPins => .panel 0xDA
  | .outVcomh => .panel 0xDB
  | .outChargePump => .panel 0x8D
  | .outDisplayOn => .panel 0xAF
  | .outColumnRange => .panel 0x21
  | .outPageAddress => .panel 0x22

/-! ## The opcode table's rows -/

/-- One row of spec/opcode_table.json: the port its bits stand on, its match and its mask. -/
structure TableRow where
  onBus : Bool
  pattern : Nat
  mask : Nat
  deriving DecidableEq, Repr

/-- The row's match over its mask holds of these bits. -/
def TableRow.matches (r : TableRow) (e : Encoded) : Bool :=
  match e with
  | .host d => !r.onBus && d.word.toNat &&& r.mask == r.pattern
  | .panel b => r.onBus && b.toNat &&& r.mask == r.pattern

/-- The rows of the table. The table's row for the reserved opcodes matches OP 0x00; "the same rule covers
every OP in 0x0E..0xFF (no single mask expresses that range)", so those opcodes have no row here. -/
def opcodeRows : List TableRow :=
  ([0x01, 0x02, 0x03, 0x04, 0x05, 0x06, 0x07, 0x08, 0x09, 0x0A, 0x0B, 0x0C, 0x0D, 0x00].map
    fun m => ⟨false, m, 0xFF⟩) ++
  ([0xAE, 0xC8, 0x00, 0x10, 0x81, 0xA1].map fun m => ⟨true, m, 0xFF⟩) ++
  [⟨true, 0xA6, 0xFE⟩] ++
  ([0xA8, 0xA4, 0xD3, 0xD5, 0xD9, 0xDA, 0xDB, 0x8D, 0xAF, 0x21, 0x22].map
    fun m => ⟨true, m, 0xFF⟩)

/-! ## The table's words, for the host -/

/-- Which port the bits `w` of a table row stand on (log entry 9). A row of more than 8 bits is an operation
word. An 8-bit row is an operation word with zero operands when its byte is OP 0x00..0x0D, a command byte
of the bus when the table lists that byte, and a reserved operation word otherwise. Every bit above is
zero, so a payload the word requires is bytes of zero. -/
def tableForm (nbits w : Nat) : Encoded :=
  let word := BitVec.ofNat 64 w
  let byte := BitVec.ofNat 8 w
  let onBus := nbits ≤ 8 ∧ 0x0E ≤ byte.toNat ∧ (decodePanel byte).isOk
  if onBus then .panel byte else .host ⟨word, List.replicate (requiredLength word) 0⟩

/-- The instruction the decoder reads from a table row's bits. -/
def decodeTableWord (nbits w : Nat) : Option Instr :=
  match decode (tableForm nbits w) with
  | .ok i => some i
  | .error _ => none

end Sys2Proof
end

