-- ==== Sys2Proof/Machine/State.lean ====
section
/-! DEFINITION. The state of LOS-FB (spec/10_state.md R31), its observation (R42), and the agents around it: the
host's requests, what it has read, and whose turn comes next (R30, spec/42_panel.md R230). Plain data. -/

namespace Sys2Proof.Machine

/-- The framebuffer: (index, byte) pairs (spec/20_memory.md R61). Its one canonical form is `Framebuffer.wf`. -/
abbrev Framebuffer := List Host.Cell

/-- The canonical form: the keys are exactly 0..FB_SIZE-1, rising, so that there is one list for each contents
of the buffer ("buffer length is exactly `width * height / 8`", R61). An index that is not listed is an
address that does not exist: it reads as no byte at all (log entry 4). -/
abbrev Framebuffer.wf (p : Params) (fb : Framebuffer) : Prop := fb.map Prod.fst = List.range p.fbSize

/-- The `n`-th draw of FB_RESET: one arbitrary byte for each index (70_reset_and_hazards.md R291). -/
def Framebuffer.resetContents (p : Params) (n : Nat) : Framebuffer :=
  (List.range p.fbSize).map fun i => (i, p.fbReset n i)

/-- PSTATE (R31, R39): the panel controller's one-way state machine. -/
inductive PState where
  | uninit
  | ready
  deriving DecidableEq, Repr

/-- OPKIND (R31): which multi-transaction operation is in flight. -/
inductive OpKind where
  | none
  | init
  | flush
  deriving DecidableEq, Repr

/-- Command-framed or data-framed (00_scope.md R16): the transaction's control byte is CTRL_CMD or CTRL_DATA. -/
inductive Framing where
  | command
  | data
  deriving DecidableEq, Repr

/-- An output transaction (30_encoding.md R102): `Txn(PERIPH_ADDR, ctrl, payload)` or `BusInit`. PERIPH_ADDR and
the control bytes are constants, so a queued transaction holds its framing alone (log entry 14). -/
inductive Txn where
  | busInit
  | write (framing : Framing) (payload : List Byte)
  deriving DecidableEq, Repr

/-- What the host asks of the block. -/
inductive Request where
  /-- `Issue(word, payload)` (30_encoding.md R101). -/
  | issue (d : Descriptor)
  /-- `HostRead(i)` (20_memory.md R65). -/
  | readByte (index : Nat)
  /-- `HostReadStatus()` (20_memory.md R66). -/
  | readStatus
  /-- A write to STATUSWORD: "Writes to it are ignored" (10_state.md R37). -/
  | writeStatus (value : Word32)
  deriving DecidableEq, Repr

/-- What a host read gives back. -/
inductive Reply where
  | byte (value : Byte)
  | statusWord (value : Word32)
  deriving DecidableEq, Repr

/-- Who moves next: the host with its oldest request, the transport with Accept (R230), or a reset (R290). -/
inductive Turn where
  | host
  | transport
  | reset
  deriving DecidableEq, Repr

/-- The state. `fb` to `outq` are the block's (R31, "Nothing else is state"), `outlog` is the observation (R42);
`requests`, `replies` and `turns` are the agents around it, and `resets` counts the draws of FB_RESET
(the model's own: log entries 1, 2, 3 and 11). -/
structure State where
  fb : Framebuffer
  pstate : PState
  status : Byte
  busy : Bool
  opkind : OpKind
  outq : List Txn
  outlog : List Txn
  requests : List Request
  replies : List Reply
  turns : List Turn
  resets : Nat
  deriving DecidableEq, Repr

/-- LOS-FB has no fault that stops the machine: "LOS-FB has no traps. An operation that meets an error still
completes" (60_exceptions.md R260). SIZE_MISMATCH and ILLEGAL_OP are next states with a STATUS code, so this
type has no constructor (log entry 15). -/
inductive Fault where
  deriving DecidableEq, Repr

/-- The contract violations of 60_exceptions.md R263, which the source leaves undefined and the spec tells a
model to refuse (00_scope.md R13): "the run has no further meaning". Each is safe: no claim can be proved
about what the block does after one. -/
inductive Refusal where
  /-- Raised by `exec` for an instruction without a meaning: none in this model. Safe. -/
  | notModelled (mnemonic : String)
  /-- Raised at the host port, and by LOAD and STR: the payload length is not the required one (R100). Safe. -/
  | payloadLengthMismatch
  /-- Raised by CHAR and STR: a character code outside FIRST_CODE..LAST_CODE (R171). Safe. -/
  | fontCodeOutOfRange
  /-- Raised by FIX13, FIX21, FIX31 and FIX30: the operand is an infinity or a NaN (R190). Safe. -/
  | floatNotFinite
  /-- Raised by FIX13, FIX21, FIX31 and FIX30: the operand is below zero (R190). Safe. -/
  | floatNegative
  /-- Raised by FIX13, FIX21, FIX31 and FIX30 in F32_PRODUCT mode: the product overflows binary32 (R191). Safe. -/
  | scaleOverflow
  /-- Raised by HostRead while BUSY = 1 or at an index >= FB_SIZE (R65). Safe. -/
  | hostReadUndefined
  deriving DecidableEq, Repr

/-- What a meaning answers. -/
abbrev Outcome := Host.Outcome State Fault Refusal

/-- The machine right after reset (70_reset_and_hazards.md R290): FB holds draw 0 of FB_RESET, and the agents
around the block have nothing to do yet. -/
def State.reset : State where
  fb := Framebuffer.resetContents Config.hw 0
  pstate := .uninit
  status := 0x00
  busy := false
  opkind := .none
  outq := []
  outlog := []
  requests := []
  replies := []
  turns := []
  resets := 0

end Sys2Proof.Machine
end

