-- ==== Sys2Proof/Machine/Flags.lean ====
section
/-! DEFINITION. The status codes and STATUSWORD (spec/10_state.md R37, R38, spec/60_exceptions.md R261). The block has
no flags or condition codes beyond STATUS (R41). -/

namespace Sys2Proof.Machine

/-- OK: every operation that succeeds (R261). -/
def Status.ok : Byte := 0x00

/-- SIZE_MISMATCH: LOAD with V != FB_SIZE (R261). -/
def Status.sizeMismatch : Byte := 0x01

/-- ILLEGAL_OP: a reserved opcode (R261). -/
def Status.illegalOp : Byte := 0x02

/-- PSTATE as its bit: UNINIT = 0, READY = 1 (R31). -/
def PState.bit (s : PState) : BitVec 1 :=
  match s with
  | .uninit => 0#1
  | .ready => 1#1

/-- STATUSWORD, register number 0: STATUS in 7:0, BUSY in bit 8, PSTATE in bit 9, zero above (R37). -/
def statusWord (s : State) : Word32 := 0#22 ++ s.pstate.bit ++ BitVec.ofBool s.busy ++ s.status

end Sys2Proof.Machine
end

