-- ==== Sys2Proof/Machine/Operands.lean ====
section
/-! DEFINITION. The operand forms: framebuffer and glyph addressing (spec/00_scope.md R15, spec/41_glyph.md R172),
loop ranges (R14), decimal digits (R174), and the binary32 operand with its scaling and rounding (R190 to
R192). All arithmetic is in unbounded naturals (R14, R93). -/

namespace Sys2Proof.Machine

/-! ## Addresses and ranges -/

/-- byte_index(x, page) = page * WIDTH + x (R15). -/
def byteIndex (p : Params) (x page : Nat) : Nat := page * p.width + x

/-- bit_index(y) = y mod 8 (R15). -/
def bitIndex (y : Nat) : Nat := y % 8

/-- The page of pixel row y is y div 8 (R15). -/
def pageOf (y : Nat) : Nat := y / 8

/-- The byte offset of column `j` of page row `r` of the cell at (`yPage`, `xSymbol`):
`(y_page + r) * WIDTH + x_symbol * CELL_W + j` (R172). -/
def glyphOffset (p : Params) (yPage xSymbol r j : Nat) : Nat :=
  (yPage + r) * p.width + xSymbol * p.cellW + j

/-- `a..b`: a, a+1, ..., b, and nothing when a > b (R14). -/
def inclusive (a b : Nat) : List Nat := List.range' a (b + 1 - a)

/-- The code has a glyph: FIRST_CODE <= c <= LAST_CODE (R171). -/
abbrev inFont (p : Params) (c : Nat) : Prop := p.firstCode ≤ c ∧ c ≤ p.lastCode

/-- Digit `i` of the `n` digits of `value`, most significant first: `(value div 10^(n-1-i)) mod 10` (R174). -/
def digit (value n i : Nat) : Nat := value / 10 ^ (n - 1 - i) % 10

/-! ## The binary32 operand (R190)

Every finite binary32 value is a whole multiple of 2^-149. A value is held as that multiple, so the spec's
exact rationals are naturals over one denominator. The layout is the standard one, which the spec marks as
general knowledge: PRESUMED (log entry 19). -/

/-- 2^149: a value `val` is held as `val * 2^149`. -/
def f32Unit : Nat := 2 ^ 149

/-- 2^128 in these units: the least value beyond the binary32 range. -/
def f32Limit : Nat := 2 ^ 128 * f32Unit

/-- The sign s = V[31]. -/
def f32Sign (v : Word32) : Bool := v.getLsbD 31

/-- The exponent e = V[30:23]. -/
def f32Exponent (v : Word32) : Nat := (v.extractLsb' 23 8).toNat

/-- The fraction m = V[22:0]. -/
def f32Fraction (v : Word32) : Nat := (v.extractLsb' 0 23).toNat

/-- The magnitude in units of 2^-149: `m` for e = 0, and `(2^23 + m) * 2^(e - 150)`, that is
`(2^23 + m) * 2^(e - 1)` units, otherwise (R190). -/
def f32Magnitude (v : Word32) : Nat :=
  if f32Exponent v = 0 then f32Fraction v else (2 ^ 23 + f32Fraction v) * 2 ^ (f32Exponent v - 1)

/-- FDECODE(V) in units of 2^-149: infinities and NaNs are refused first, then values below zero; -0.0 decodes
to 0 (R190). -/
def fdecode (v : Word32) : Except Refusal Nat :=
  if f32Exponent v = 255 then .error .floatNotFinite
  else if f32Sign v ∧ f32Magnitude v ≠ 0 then .error .floatNegative
  else .ok (f32Magnitude v)

/-! ## Rounding to binary32 and scaling (R191) -/

/-- The last place kept when `x` units are rounded to 24 significant bits: 0 below 2^24 units. -/
def f32Shift (x : Nat) : Nat := Nat.log2 x - 23

/-- round_binary32_nearest_even of `num / den` units, in units: 24 significant bits and no place below one
unit, ties to even. A result of `f32Limit` or more is an infinity. -/
def roundF32 (num den : Nat) : Nat :=
  let place := den * 2 ^ f32Shift (num / den)
  let q := num / place
  let r := num % place
  let up := if place < 2 * r ∨ (2 * r = place ∧ q % 2 = 1) then 1 else 0
  (q + up) * 2 ^ f32Shift (num / den)

/-- The product val * K rounded to binary32, in units. -/
def f32Product (val k : Nat) : Nat := roundF32 (val * k) 1

/-- SCALE(val, K) (R191). EXACT: the floor of the exact product. F32_PRODUCT: the floor of the product rounded
to binary32, refused when that is infinite. -/
def scale (p : Params) (val k : Nat) : Except Refusal Nat :=
  if f32Limit ≤ f32Product val k ∧ p.scaleMode = .f32Product then .error .scaleOverflow
  else .ok (match p.scaleMode with
    | .exact => val * k / f32Unit
    | .f32Product => f32Product val k / f32Unit)

/-- N = (S div 10) + (1 if (S mod 10) >= 5 else 0): round half up on the discarded digit (R192). -/
def roundHalfUp (s : Nat) : Nat := s / 10 + if 5 ≤ s % 10 then 1 else 0

/-- N for the operand `v` with `f` fractional digits: FDECODE, SCALE by 10^(F+1), round (R193). -/
def fixedValue (p : Params) (v : Word32) (f : Nat) : Except Refusal Nat :=
  match fdecode v with
  | .error e => .error e
  | .ok val =>
    match scale p val (10 ^ (f + 1)) with
    | .error e => .error e
    | .ok s => .ok (roundHalfUp s)

end Sys2Proof.Machine
end

