-- ==== Sys2Proof/Machine/Ops.lean ====
section
/-! DEFINITION. The operations the meanings share: reading and writing the framebuffer (spec/20_memory.md R62 to
R65), named updates of the state, what every operation does on acceptance (spec/10_state.md R38), raising an
error (spec/00_scope.md R13, spec/60_exceptions.md R260), the output transactions (spec/42_panel.md R221), the
transport's Accept with its completion (R230, R226), and reset (spec/70_reset_and_hazards.md R290). -/

namespace Sys2Proof.Machine

/-! ## The framebuffer -/

/-- FB[i], or nothing where the address does not exist (R12, R64). -/
def Framebuffer.read (fb : Framebuffer) (i : Nat) : Option Byte := List.lookup i fb

/-- FB[i] <- v. An address that does not exist stays so (R61: "never resized"). -/
def Framebuffer.write (fb : Framebuffer) (i : Nat) (v : Byte) : Framebuffer :=
  List.map (fun c : Host.Cell => if c.1 = i then (i, v) else c) fb

/-- FB[i] <- v guarded by `i < FB_SIZE` (R64, and the glyph clip of 41_glyph.md R172). -/
def Framebuffer.store (p : Params) (fb : Framebuffer) (i : Nat) (v : Byte) : Framebuffer :=
  if i < p.fbSize then Framebuffer.write fb i v else fb

/-- `for i in 0..FB_SIZE-1 : FB[i] <- 0x00` (R131). -/
def Framebuffer.zeros (p : Params) : Framebuffer := (List.range p.fbSize).map fun i => (i, 0x00)

/-- The pixel at column `x`, row `y`: bit y mod 8 of byte (y div 8) * WIDTH + x, 1 = set (R62, R63). -/
def Framebuffer.pixel (p : Params) (fb : Framebuffer) (x y : Nat) : Option Bool :=
  match Framebuffer.read fb (byteIndex p x (pageOf y)) with
  | some b => some (b.getLsbD (bitIndex y))
  | none => none

/-! ## Named updates of the state -/

/-- FB becomes `fb`. -/
def State.setFb (s : State) (fb : Framebuffer) : State := { s with fb := fb }

/-- STATUS becomes `code` (R38). -/
def State.setStatus (s : State) (code : Byte) : State := { s with status := code }

/-- The host's request queue becomes `rs`. -/
def State.setRequests (s : State) (rs : List Request) : State := { s with requests := rs }

/-- The turns left become `ts`. -/
def State.setTurns (s : State) (ts : List Turn) : State := { s with turns := ts }

/-- The host has read `r`. -/
def State.pushReply (s : State) (r : Reply) : State := { s with replies := s.replies ++ [r] }

/-- `OUTQ <- q ; OPKIND <- kind ; BUSY <- 1` (R223, R225). -/
def State.launch (s : State) (kind : OpKind) (q : List Txn) : State :=
  { s with outq := q, opkind := kind, busy := true }

/-- The transaction `t` leaves OUTQ for OUTLOG, and `q` is what is left (R230). -/
def State.moveOut (s : State) (t : Txn) (q : List Txn) : State :=
  { s with outq := q, outlog := s.outlog ++ [t] }

/-- Completion: `BUSY <- 0 ; if OPKIND = INIT : PSTATE <- READY ; OPKIND <- NONE` (R226). -/
def State.complete (s : State) : State :=
  { s with busy := false, pstate := if s.opkind = .init then .ready else s.pstate, opkind := .none }

/-! ## Acceptance, success and errors -/

/-- Every operation is accepted only when BUSY = 0. While BUSY = 1 the host holds: nothing changes (R101,
log entry 10). -/
def whenIdle (s : State) (op : State → Outcome) : Outcome := if s.busy then .next s else op s

/-- A memory-only operation completes in the step that accepts it: it writes FB and STATUS = OK (R101, R38). A
contract violation is refused (R263). -/
def finish (s : State) (r : Except Refusal Framebuffer) : Outcome :=
  match r with
  | .ok fb => .next ((s.setFb fb).setStatus Status.ok)
  | .error e => .refused e

/-- `raise`: "the operation completes with STATUS set to that error's code and with no other effect" (R13, R260).
LOS-FB saves no state and has no vector and no return (R266), so this is all there is of an exception. -/
def raise (s : State) (code : Byte) : Outcome := .next (s.setStatus code)

/-- A multi-transaction operation starts: FB as the operation leaves it, the queue, and STATUS = OK (R101, R38). -/
def start (s : State) (kind : OpKind) (fb : Framebuffer) (q : List Txn) : Outcome :=
  .next (((s.setFb fb).launch kind q).setStatus Status.ok)

/-! ## Output transactions -/

/-- CMD(b) = Txn(PERIPH_ADDR, CTRL_CMD, [b]) (R221). -/
def Txn.cmd (b : Byte) : Txn := .write .command [b]

/-- DATA(bytes) = Txn(PERIPH_ADDR, CTRL_DATA, bytes) (R221). -/
def Txn.data (bytes : List Byte) : Txn := .write .data bytes

/-- The control byte of a framing (R102). -/
def Framing.ctrl (p : Params) (f : Framing) : Byte :=
  match f with
  | .command => p.ctrlCmd
  | .data => p.ctrlData

/-- What the transport is handed: `write(peripheral_address, control_byte, payload_bytes)` (R102, R228), or
nothing on the bus for BusInit, which "carries no bytes" (R231). -/
def Txn.bus (p : Params) (t : Txn) : Option (Nat × Byte × List Byte) :=
  match t with
  | .busInit => none
  | .write f payload => some (p.periphAddr, f.ctrl p, payload)

/-- One mark of the tagged byte stream (R232): the marker BUS_INIT, or a byte with its framing. -/
inductive Tagged where
  | busInit
  | byte (framing : Framing) (value : Byte)
  deriving DecidableEq, Repr

/-- The marks one transaction contributes (R232). -/
def Txn.tagged (t : Txn) : List Tagged :=
  match t with
  | .busInit => [.busInit]
  | .write f payload => payload.map (Tagged.byte f)

/-- The tagged byte stream of a list of transactions (R232). -/
def taggedStream (l : List Txn) : List Tagged := l.flatMap Txn.tagged

/-- Accept: the head of OUTQ goes to OUTLOG, and the last one completes the operation. Not enabled when OUTQ is
empty: nothing changes (R230, R226). -/
def accept (s : State) : State :=
  match s.outq with
  | [] => s
  | t :: q => if q.isEmpty then (s.moveOut t q).complete else s.moveOut t q

/-- The transport takes the command byte `b`: Accept, when CMD(b) is the head of OUTQ. The event is not enabled
otherwise, and nothing changes (R230, log entry 7). -/
def acceptCommand (s : State) (b : Byte) : Outcome :=
  if s.outq.head? = some (Txn.cmd b) then .next (accept s) else .next s

/-! ## Reset -/

/-- Reset: every piece of the block's state and the observation at R290's value, FB at the next draw of
FB_RESET. What the host has read and still asks, and the turns to come, are not the block's (log entry 12). -/
def resetBlock (s : State) : State :=
  { State.reset with
    fb := Framebuffer.resetContents Config.hw (s.resets + 1)
    requests := s.requests
    replies := s.replies
    turns := s.turns
    resets := s.resets + 1 }

end Sys2Proof.Machine
end

