-- ==== Sys2Proof/Machine/Framebuffer.lean ====
section
/-! DEFINITION. CLEAR, CLRRECT, LOAD, SETPX (spec/40_framebuffer.md) and the reserved opcodes
(spec/30_encoding.md R99): memory-only operations, accepted in either PSTATE. -/

namespace Sys2Proof.Machine

/-- The zeroing loop of R135 over one page: `for x in x_first..x_last : if x < WIDTH : FB[p*WIDTH + x] <- 0x00`. -/
def clearColumns (p : Params) (xFirst xLast page : Nat) (fb : Framebuffer) : Framebuffer :=
  (inclusive xFirst xLast).foldl
    (fun fb x => if x < p.width then Framebuffer.write fb (byteIndex p x page) 0x00 else fb) fb

/-- The loops of R135: `for p in page_first..page_last : if p < PAGES : ...`. Each coordinate is clipped on
its own (D15). -/
def clearRect (p : Params) (xFirst xLast pageFirst pageLast : Nat) (fb : Framebuffer) : Framebuffer :=
  (inclusive pageFirst pageLast).foldl
    (fun fb page => if page < p.pages then clearColumns p xFirst xLast page fb else fb) fb

/-- `for i in 0..FB_SIZE-1 : FB[i] <- bitmap[i]` (R140): "replaces the entire buffer byte-for-byte". -/
def loadBitmap (p : Params) (bitmap : List Byte) : Framebuffer := (List.range p.fbSize).zip bitmap

/-- The byte with bit `b` set or cleared, "all other bits unaffected" (R150). -/
def putBit (state : Bool) (b : Nat) (v : Byte) : Byte :=
  if state then v ||| (1#8 <<< b) else v &&& ~~~(1#8 <<< b)

/-- The body of R150: out of range is a no-op; otherwise only bit y mod 8 of byte (y div 8)*WIDTH + x changes. -/
def setPixel (p : Params) (state : Bool) (x y : Nat) (fb : Framebuffer) : Framebuffer :=
  if x < p.width ∧ y < p.height then
    match Framebuffer.read fb (byteIndex p x (pageOf y)) with
    | some v => Framebuffer.write fb (byteIndex p x (pageOf y)) (putBit state (bitIndex y) v)
    | none => fb
  else fb

/-- CLEAR: every byte is 0, STATUS = OK (R131). -/
def execClear (s : State) : Outcome :=
  whenIdle s fun s => finish s (.ok (Framebuffer.zeros Config.hw))

/-- CLRRECT: the bytes of the rectangle are 0, STATUS = OK (R135, R136). -/
def execClrrect (xFirst xLast pageFirst pageLast : Byte) (s : State) : Outcome :=
  whenIdle s fun s =>
    finish s (.ok (clearRect Config.hw xFirst.toNat xLast.toNat pageFirst.toNat pageLast.toNat s.fb))

/-- LOAD: SIZE_MISMATCH with FB unchanged when size != FB_SIZE, otherwise FB is the bitmap and STATUS = OK
(R140). The payload length comes first (R100, R265). -/
def execLoad (size : Word32) (bitmap : List Byte) (s : State) : Outcome :=
  whenIdle s fun s =>
    if bitmap.length ≠ size.toNat then .refused .payloadLengthMismatch
    else if size.toNat ≠ Config.hw.fbSize then raise s Status.sizeMismatch
    else finish s (.ok (loadBitmap Config.hw bitmap))

/-- SETPX: one bit of FB, or nothing when out of range; STATUS = OK either way (R150). -/
def execSetpx (state : Bool) (x y : Byte) (s : State) : Outcome :=
  whenIdle s fun s => finish s (.ok (setPixel Config.hw state x.toNat y.toNat s.fb))

/-- A reserved opcode: STATUS = ILLEGAL_OP and no other effect (R99). -/
def execReserved (_op : Byte) (s : State) : Outcome :=
  whenIdle s fun s => raise s Status.illegalOp

end Sys2Proof.Machine
end

