-- ==== Sys2Proof/Machine/Glyph.lean ====
section
/-! DEFINITION. CHAR, STR, UINT and the four fixed-decimal operations (spec/41_glyph.md): memory-only operations,
accepted in either PSTATE. -/

namespace Sys2Proof.Machine

/-! ## The glyph cell -/

/-- The cell byte of column `j`, page row `r` (R170): the glyph column, or 0x00 in a spacing column. -/
def cellByte (p : Params) (c r j : Nat) : Byte :=
  if p.spaceLead ≤ j ∧ j < p.spaceLead + p.fontXSize then p.glyph c r (j - p.spaceLead) else 0x00

/-- One page row of a cell: columns ascending, a byte store each, clipped by offset (R172, R173). -/
def drawRow (p : Params) (c yPage xSymbol r : Nat) (fb : Framebuffer) : Framebuffer :=
  (List.range p.cellW).foldl
    (fun fb j => Framebuffer.store p fb (glyphOffset p yPage xSymbol r j) (cellByte p c r j)) fb

/-- The stores of CHARBODY: page rows ascending, then columns, and the last store to an offset wins (R173). -/
def drawCell (p : Params) (c yPage xSymbol : Nat) (fb : Framebuffer) : Framebuffer :=
  (List.range p.fontPages).foldl (fun fb r => drawRow p c yPage xSymbol r fb) fb

/-- CHARBODY(c, y_page, x_symbol): a code without a glyph is refused (R171, R173). -/
def charBody (p : Params) (c yPage xSymbol : Nat) (fb : Framebuffer) : Except Refusal Framebuffer :=
  if inFont p c then .ok (drawCell p c yPage xSymbol fb) else .error .fontCodeOutOfRange

/-! ## Strings and numbers -/

/-- The cells of a string, left to right from `xSymbol`, which is not reduced modulo 256 (R180). -/
def drawText (p : Params) (text : List Byte) (yPage xSymbol : Nat) (fb : Framebuffer) : Framebuffer :=
  match text with
  | [] => fb
  | c :: rest => drawText p rest yPage (xSymbol + 1) (drawCell p c.toNat yPage xSymbol fb)

/-- The body of STR: all characters are checked before any is drawn (R180, R265). -/
def textBody (p : Params) (text : List Byte) (yPage xSymbol : Nat) (fb : Framebuffer) :
    Except Refusal Framebuffer :=
  if ∀ c ∈ text, inFont p c.toNat then .ok (drawText p text yPage xSymbol fb)
  else .error .fontCodeOutOfRange

/-- UINTBODY(y_page, x_symbol, value, n): the digits 0x30 + d, most significant first (R174). "The codes
0x30..0x39 always lie in the font range", so the check of CHARBODY is left out (log entry 18). -/
def drawDigits (p : Params) (yPage xSymbol value n : Nat) (fb : Framebuffer) : Framebuffer :=
  (List.range n).foldl (fun fb i => drawCell p (0x30 + digit value n i) yPage (xSymbol + i) fb) fb

/-- The cells of FIXBODY for the rounded value `n`, with `i` integer and `f` fractional digits: integer digits,
divider, fractional digits; for F = 0 the integer digits alone (R193). -/
def drawFixed (p : Params) (yPage xSymbol n i f : Nat) (fb : Framebuffer) : Framebuffer :=
  if f = 0 then drawDigits p yPage xSymbol n i fb
  else
    let whole := drawDigits p yPage xSymbol (n / 10 ^ f) i fb
    let divided := drawCell p p.dividerCode yPage (xSymbol + i) whole
    drawDigits p yPage (xSymbol + i + 1) (n % 10 ^ f) f divided

/-- FIXBODY(y_page, x_symbol, V, I, F): the operand is decoded, scaled and rounded before any cell is written
(R193, R265). -/
def fixBody (p : Params) (yPage xSymbol : Nat) (v : Word32) (i f : Nat) (fb : Framebuffer) :
    Except Refusal Framebuffer :=
  match fixedValue p v f with
  | .error e => .error e
  | .ok n => .ok (drawFixed p yPage xSymbol n i f fb)

/-! ## The operations -/

/-- CHAR: one cell, STATUS = OK (R175). -/
def execChar (charCode yPage xSymbol : Byte) (s : State) : Outcome :=
  whenIdle s fun s => finish s (charBody Config.hw charCode.toNat yPage.toNat xSymbol.toNat s.fb)

/-- STR: the cells of the text, STATUS = OK (R180). The payload length comes first (R100, R265). -/
def execStr (length yPage xSymbol : Byte) (text : List Byte) (s : State) : Outcome :=
  whenIdle s fun s =>
    if text.length ≠ length.toNat then .refused .payloadLengthMismatch
    else finish s (textBody Config.hw text yPage.toNat xSymbol.toNat s.fb)

/-- UINT: `digit_count` digits of `value`, STATUS = OK (R185). -/
def execUint (yPage xSymbol digitCount : Byte) (value : Word32) (s : State) : Outcome :=
  whenIdle s fun s =>
    finish s (.ok (drawDigits Config.hw yPage.toNat xSymbol.toNat value.toNat digitCount.toNat s.fb))

/-- FIX13: 1 integer digit and 3 fractional digits (R195). -/
def execFix13 (yPage xSymbol : Byte) (value : Word32) (s : State) : Outcome :=
  whenIdle s fun s => finish s (fixBody Config.hw yPage.toNat xSymbol.toNat value 1 3 s.fb)

/-- FIX21: 2 integer digits and 1 fractional digit (R196). -/
def execFix21 (yPage xSymbol : Byte) (value : Word32) (s : State) : Outcome :=
  whenIdle s fun s => finish s (fixBody Config.hw yPage.toNat xSymbol.toNat value 2 1 s.fb)

/-- FIX31: 3 integer digits and 1 fractional digit (R197). -/
def execFix31 (yPage xSymbol : Byte) (value : Word32) (s : State) : Outcome :=
  whenIdle s fun s => finish s (fixBody Config.hw yPage.toNat xSymbol.toNat value 3 1 s.fb)

/-- FIX30: 3 integer digits, no divider (R198). -/
def execFix30 (yPage xSymbol : Byte) (value : Word32) (s : State) : Outcome :=
  whenIdle s fun s => finish s (fixBody Config.hw yPage.toNat xSymbol.toNat value 3 0 s.fb)

end Sys2Proof.Machine
end

