-- ==== Sys2Proof/Machine/Panel.lean ====
section
/-! DEFINITION. INIT, FLUSH and the command bytes of the output bus (spec/42_panel.md, spec/30_encoding.md R103). -/

namespace Sys2Proof.Machine

/-! ## The command lists -/

/-- INIT_SEQ(inverse_video, contrast, precharge): the 25 literal bytes (R222, R104). -/
def initSeq (inverseVideo : Bool) (contrast precharge : Byte) : List Byte :=
  [0xAE, 0xC8, 0x00, 0x10, 0x00, 0x81, contrast, 0xA1, if inverseVideo then 0xA7 else 0xA6,
   0xA8, 0x3F, 0xA4, 0xD3, 0x00, 0xD5, 0x50, 0xD9, precharge,
   0xDA, 0x12, 0xDB, 0x20, 0x8D, 0x14, 0xAF]

/-- The data bytes of a page, in ascending index order (R67, R224). An address that does not exist gives no
byte: none does in a framebuffer in canonical form (log entry 17). -/
def pageBytes (p : Params) (fb : Framebuffer) (page : Nat) : List Byte :=
  (List.range p.width).filterMap fun x => Framebuffer.read fb (byteIndex p x page)

/-- The 7 transactions of one page: column range 0 to WIDTH-1, page address `page` to the literal 7, data
(R224, R11). -/
def pageTxns (p : Params) (fb : Framebuffer) (page : Nat) : List Txn :=
  [Txn.cmd 0x21, Txn.cmd 0x00, Txn.cmd (BitVec.ofNat 8 (p.width - 1)),
   Txn.cmd 0x22, Txn.cmd (BitVec.ofNat 8 page), Txn.cmd 0x07,
   Txn.data (pageBytes p fb page)]

/-- FLUSH_TXNS(fb): the pages in ascending order (R224, R227). -/
def flushTxns (p : Params) (fb : Framebuffer) : List Txn :=
  (List.range p.pages).flatMap (pageTxns p fb)

/-- The list Q of R223: BusInit if asked for (R231), the 25 commands, then the flush of a cleared buffer. -/
def initTxns (p : Params) (alsoInitBus inverseVideo : Bool) (contrast precharge : Byte) : List Txn :=
  (if alsoInitBus then [Txn.busInit] else []) ++
  (initSeq inverseVideo contrast precharge).map Txn.cmd ++
  flushTxns p (Framebuffer.zeros p)

/-! ## INIT and FLUSH -/

/-- INIT: FB is cleared, the list is queued, BUSY = 1, OPKIND = INIT, STATUS = OK (R223). PSTATE becomes READY at
completion (R226). -/
def execInit (alsoInitBus inverseVideo : Bool) (contrast precharge : Byte) (s : State) : Outcome :=
  whenIdle s fun s =>
    start s .init (Framebuffer.zeros Config.hw)
      (initTxns Config.hw alsoInitBus inverseVideo contrast precharge)

/-- FLUSH: FB as it stands is queued, BUSY = 1, OPKIND = FLUSH, STATUS = OK; FB is unchanged (R225, R74). -/
def execFlush (s : State) : Outcome :=
  whenIdle s fun s => start s .flush s.fb (flushTxns Config.hw s.fb)

/-! ## The command bytes

The rows OUT_ of the opcode table, each "one CMD transaction; not an input operation": the block has queued
CMD(b), and the row's instruction is the transport taking it (R221, R230, log entry 7). -/

/-- OUT_DISPLAY_OFF 0xAE (R222, init 1). -/
def execOutDisplayOff (s : State) : Outcome := acceptCommand s 0xAE

/-- OUT_SCAN_DIRECTION 0xC8 (R222, init 2). -/
def execOutScanDirection (s : State) : Outcome := acceptCommand s 0xC8

/-- OUT_ADDR_GROUP_00 0x00 (R222, init 3 and 5; also an operand byte of 0xD3 and 0x21). -/
def execOutAddrGroup00 (s : State) : Outcome := acceptCommand s 0x00

/-- OUT_ADDR_GROUP_10 0x10 (R222, init 4). -/
def execOutAddrGroup10 (s : State) : Outcome := acceptCommand s 0x10

/-- OUT_CONTRAST 0x81 (R222, init 6); the contrast byte follows as a transaction of its own. -/
def execOutContrast (s : State) : Outcome := acceptCommand s 0x81

/-- OUT_SEGMENT_REMAP 0xA1 (R222, init 8). -/
def execOutSegmentRemap (s : State) : Outcome := acceptCommand s 0xA1

/-- OUT_NORMAL_INVERSE 0xA6 or 0xA7 (R104, R222, init 9). -/
def execOutNormalInverse (inverse : Bool) (s : State) : Outcome :=
  acceptCommand s (if inverse then 0xA7 else 0xA6)

/-- OUT_MULTIPLEX 0xA8 (R222, init 10). -/
def execOutMultiplex (s : State) : Outcome := acceptCommand s 0xA8

/-- OUT_ENTIRE_DISPLAY_ON 0xA4 (R222, init 12). -/
def execOutEntireDisplayOn (s : State) : Outcome := acceptCommand s 0xA4

/-- OUT_DISPLAY_OFFSET 0xD3 (R222, init 13). -/
def execOutDisplayOffset (s : State) : Outcome := acceptCommand s 0xD3

/-- OUT_CLOCK_DIVIDER 0xD5 (R222, init 15). -/
def execOutClockDivider (s : State) : Outcome := acceptCommand s 0xD5

/-- OUT_PRECHARGE 0xD9 (R222, init 17); the precharge byte follows as a transaction of its own. -/
def execOutPrecharge (s : State) : Outcome := acceptCommand s 0xD9

/-- OUT_COM_PINS 0xDA (R222, init 19). -/
def execOutComPins (s : State) : Outcome := acceptCommand s 0xDA

/-- OUT_VCOMH 0xDB (R222, init 21). -/
def execOutVcomh (s : State) : Outcome := acceptCommand s 0xDB

/-- OUT_CHARGE_PUMP 0x8D (R222, init 23). -/
def execOutChargePump (s : State) : Outcome := acceptCommand s 0x8D

/-- OUT_DISPLAY_ON 0xAF (R222, init 25). -/
def execOutDisplayOn (s : State) : Outcome := acceptCommand s 0xAF

/-- OUT_COLUMN_RANGE 0x21 (R224, first of each page). -/
def execOutColumnRange (s : State) : Outcome := acceptCommand s 0x21

/-- OUT_PAGE_ADDRESS 0x22 (R224, fourth of each page). -/
def execOutPageAddress (s : State) : Outcome := acceptCommand s 0x22

end Sys2Proof.Machine
end

