-- ==== Sys2Proof/Machine/Dispatch.lean ====
section
/-! DEFINITION. One arm per instruction; the meanings are in Framebuffer.lean, Glyph.lean and Panel.lean. -/

namespace Sys2Proof.Machine

def exec (i : Instr) (s : State) : Host.Outcome State Fault Refusal :=
  match i with
  -- the operations of the host port (spec/30_encoding.md R95)
  | .init alsoInitBus inverseVideo contrast precharge => Sys2Proof.Machine.execInit alsoInitBus inverseVideo contrast precharge s
  | .clear => Sys2Proof.Machine.execClear s
  | .clrrect xFirst xLast pageFirst pageLast => Sys2Proof.Machine.execClrrect xFirst xLast pageFirst pageLast s
  | .load size bitmap => Sys2Proof.Machine.execLoad size bitmap s
  | .setpx state x y => Sys2Proof.Machine.execSetpx state x y s
  | .char charCode yPage xSymbol => Sys2Proof.Machine.execChar charCode yPage xSymbol s
  | .str length yPage xSymbol text => Sys2Proof.Machine.execStr length yPage xSymbol text s
  | .uint yPage xSymbol digitCount value => Sys2Proof.Machine.execUint yPage xSymbol digitCount value s
  | .fix13 yPage xSymbol value => Sys2Proof.Machine.execFix13 yPage xSymbol value s
  | .fix21 yPage xSymbol value => Sys2Proof.Machine.execFix21 yPage xSymbol value s
  | .fix31 yPage xSymbol value => Sys2Proof.Machine.execFix31 yPage xSymbol value s
  | .fix30 yPage xSymbol value => Sys2Proof.Machine.execFix30 yPage xSymbol value s
  | .flush => Sys2Proof.Machine.execFlush s
  | .reserved op => Sys2Proof.Machine.execReserved op s
  -- the command bytes of the output bus (R103)
  | .outDisplayOff => Sys2Proof.Machine.execOutDisplayOff s
  | .outScanDirection => Sys2Proof.Machine.execOutScanDirection s
  | .outAddrGroup00 => Sys2Proof.Machine.execOutAddrGroup00 s
  | .outAddrGroup10 => Sys2Proof.Machine.execOutAddrGroup10 s
  | .outContrast => Sys2Proof.Machine.execOutContrast s
  | .outSegmentRemap => Sys2Proof.Machine.execOutSegmentRemap s
  | .outNormalInverse inverse => Sys2Proof.Machine.execOutNormalInverse inverse s
  | .outMultiplex => Sys2Proof.Machine.execOutMultiplex s
  | .outEntireDisplayOn => Sys2Proof.Machine.execOutEntireDisplayOn s
  | .outDisplayOffset => Sys2Proof.Machine.execOutDisplayOffset s
  | .outClockDivider => Sys2Proof.Machine.execOutClockDivider s
  | .outPrecharge => Sys2Proof.Machine.execOutPrecharge s
  | .outComPins => Sys2Proof.Machine.execOutComPins s
  | .outVcomh => Sys2Proof.Machine.execOutVcomh s
  | .outChargePump => Sys2Proof.Machine.execOutChargePump s
  | .outDisplayOn => Sys2Proof.Machine.execOutDisplayOn s
  | .outColumnRange => Sys2Proof.Machine.execOutColumnRange s
  | .outPageAddress => Sys2Proof.Machine.execOutPageAddress s

end Sys2Proof.Machine
end

