-- ==== Sys2Proof/Machine/Ports.lean ====
section
/-! DEFINITION. What each agent's turn does: the host port (spec/30_encoding.md R101, spec/20_memory.md R65, R66), the
transport (spec/42_panel.md R230) and reset, and how an instruction's bits are laid where the next step finds
them. -/

namespace Sys2Proof.Machine

/-- Issue(word, payload) at the port, with the other requests `rest` left (R101): the payload length is checked
first (R100), then the operation is performed. -/
def issue (d : Descriptor) (rest : List Request) (s : State) : Outcome :=
  match decodeHost d with
  | .ok i => exec i (s.setRequests rest)
  | .error _ => .refused .payloadLengthMismatch

/-- HostRead(i): FB[i] when BUSY = 0 and i < FB_SIZE, refused otherwise; no side effect (R65). -/
def hostRead (index : Nat) (rest : List Request) (s : State) : Outcome :=
  if s.busy ∨ Config.hw.fbSize ≤ index then .refused .hostReadUndefined
  else
    match Framebuffer.read s.fb index with
    | some b => .next ((s.setRequests rest).pushReply (.byte b))
    | none => .refused .hostReadUndefined

/-- The host's turn: its oldest request. An Issue is enabled only when BUSY = 0; otherwise the host holds it
(R101). STATUSWORD is read at any time (R66), and a write to it is ignored (R37, log entry 6). -/
def hostTurn (s : State) : Outcome :=
  match s.requests with
  | [] => .next s
  | .issue d :: rest => if s.busy then .next s else issue d rest s
  | .readByte index :: rest => hostRead index rest s
  | .readStatus :: rest => .next ((s.setRequests rest).pushReply (.statusWord (statusWord s)))
  | .writeStatus _ :: rest => .next (s.setRequests rest)

/-- The command byte of a command-framed transaction of one byte (R221). -/
def Txn.commandByte (t : Txn) : Option Byte :=
  match t with
  | .write .command [b] => some b
  | _ => none

/-- The instruction a command byte of the table stands for, when the transaction is one (R103). An operand byte
of a value the table lists is named by that value too; it is accepted alike (log entry 8). -/
def Txn.command (t : Txn) : Option Instr :=
  match t.commandByte with
  | none => none
  | some b =>
    match decodePanel b with
    | .ok i => some i
    | .error _ => none

/-- The transport's turn: Accept of the head of OUTQ (R230). A command byte of the table is run as its
instruction; an operand byte, a page of data and BusInit are accepted as they are. -/
def transportTurn (s : State) : Outcome :=
  match s.outq with
  | [] => .next s
  | t :: _ =>
    match t.command with
    | some i => exec i s
    | none => .next (accept s)

/-- One agent's turn (R30). -/
def takeTurn (t : Turn) (s : State) : Outcome :=
  match t with
  | .host => hostTurn s
  | .transport => transportTurn s
  | .reset => .next (resetBlock s)

/-- `s` with the instruction's bits where the next step finds them: on the host port, idle, with the host's turn
next; or at the head of OUTQ with the transport's turn next. -/
def offer (e : Encoded) (s : State) : State :=
  match e with
  | .host d =>
    { s with
      outq := []
      opkind := .none
      busy := false
      requests := .issue d :: s.requests
      turns := .host :: s.turns }
  | .panel b =>
    { s with
      outq := Txn.cmd b :: s.outq
      opkind := if s.opkind = .none then .flush else s.opkind
      busy := true
      turns := .transport :: s.turns }

end Sys2Proof.Machine
end

