-- ==== Sys2Proof/Machine/Step.lean ====
section
/-! DEFINITION. One step: the agent whose turn it is moves (spec/10_state.md R30). LOS-FB fetches nothing (R36): the
host issues operations, and the transport takes what the block has queued. -/

namespace Sys2Proof.Machine

/-- One step. When no turn is left, no agent moves and nothing changes (log entry 1). -/
def step (s : State) : Host.Outcome State Fault Refusal :=
  match s.turns with
  | [] => .next s
  | t :: ts => takeTurn t (s.setTurns ts)

/-- `s` with the table row's bits where the next step takes its instruction: at the front of the host's
requests with BUSY = 0 and the host's turn next, or, for a command byte of the bus, as CMD(b) at the head of
OUTQ with the transport's turn next (log entries 2 and 9). -/
def State.withFetchWord (s : State) (nbits w : Nat) : State := offer (tableForm nbits w) s

end Sys2Proof.Machine
end

