-- ==== Sys2Proof/Machine/Assembler.lean ====
section
/-! DEFINITION. The assembler of spec/30_encoding.md R105 and the pseudo-operations of R106: one line of text to one
descriptor. It stands beside the machine, which never uses it. Blank spaces between the parts of a line and a
comment after `--` are ignored, as the spec's own lines have them (log entry 21). -/

namespace Sys2Proof.Machine

/-- Why a line is no operation. -/
inductive AsmError where
  /-- The line is not of the form of R105. -/
  | badLine
  /-- "An operand that does not fit is an assembly error" (R105). -/
  | doesNotFit
  deriving DecidableEq, Repr

/-- The parts of a line. A decimal literal is `(-1)^negative * digits / 10^places`. -/
inductive Token where
  | name (letters : List Char)
  | decimal (negative : Bool) (digits places : Nat)
  | number (value : Nat)
  | float (pattern : Nat)
  | text (codes : List Nat)
  | comma
  | openList
  | closeList
  deriving DecidableEq, Repr

/-- A digit of a decimal number. -/
def isDigit (c : Char) : Bool := '0'.toNat ≤ c.toNat && c.toNat ≤ '9'.toNat

/-- A letter of a mnemonic. -/
def isUpper (c : Char) : Bool := 'A'.toNat ≤ c.toNat && c.toNat ≤ 'Z'.toNat

/-- The value of a hexadecimal digit, in either case. -/
def hexDigit (c : Char) : Option Nat :=
  if isDigit c then some (c.toNat - '0'.toNat)
  else if 'A'.toNat ≤ c.toNat ∧ c.toNat ≤ 'F'.toNat then some (c.toNat - 'A'.toNat + 10)
  else if 'a'.toNat ≤ c.toNat ∧ c.toNat ≤ 'f'.toNat then some (c.toNat - 'a'.toNat + 10)
  else none

/-- The number of a run of digits in a base. -/
def digitsValue (base : Nat) (ds : List Nat) : Nat := ds.foldl (fun n d => n * base + d) 0

/-- The leading run of decimal digits, and what follows. -/
def takeDigits (cs : List Char) : List Nat × List Char :=
  ((cs.takeWhile isDigit).map fun c => c.toNat - '0'.toNat, cs.dropWhile isDigit)

/-- A hexadecimal number: at least one digit of either case, and what follows (R105 `0x`). That any number of digits is
taken is the model's choice (log entry 21). -/
def takeHex (cs : List Char) : Option (Nat × List Char) :=
  let ds := (cs.takeWhile fun c => (hexDigit c).isSome).filterMap hexDigit
  if ds.isEmpty then none
  else some (digitsValue 16 ds, cs.dropWhile fun c => (hexDigit c).isSome)

/-- A decimal literal: digits, and a fraction after a point (R105). R105 does not write out its form: that a point
has digits on both sides, that there is no exponent and no plus sign, is the model's choice (log entry 21). -/
def takeDecimal (negative : Bool) (cs : List Char) : Option (Token × List Char) :=
  match takeDigits cs with
  | ([], _) => none
  | (whole, '.' :: rest) =>
    let (frac, rest') := takeDigits rest
    if frac.isEmpty then none
    else some (.decimal negative (digitsValue 10 (whole ++ frac)) frac.length, rest')
  | (whole, rest) => some (.decimal negative (digitsValue 10 whole) 0, rest)

/-- One token and what follows; `none` where no token begins (R105). The model's choice where R105 leaves the spelling
open (log entry 21): after `f32:0x`, where R105 writes eight digits, any number of them is taken; `0x` and `f32:` are
lower case; any one character may stand between quotes; a text runs to the next quote, with no escapes. -/
def nextToken (cs : List Char) : Option (Token × List Char) :=
  match cs with
  | ',' :: rest => some (.comma, rest)
  | '[' :: rest => some (.openList, rest)
  | ']' :: rest => some (.closeList, rest)
  | '\'' :: c :: '\'' :: rest => some (.number c.toNat, rest)
  | '"' :: rest =>
    match rest.dropWhile (· != '"') with
    | '"' :: rest' => some (.text ((rest.takeWhile (· != '"')).map Char.toNat), rest')
    | _ => none
  | 'f' :: '3' :: '2' :: ':' :: '0' :: 'x' :: rest =>
    (takeHex rest).map fun r => (.float r.1, r.2)
  | '0' :: 'x' :: rest => (takeHex rest).map fun r => (.number r.1, r.2)
  | '-' :: rest => takeDecimal true rest
  | c :: _ =>
    if isUpper c then
      some (.name (cs.takeWhile fun c => isUpper c || isDigit c),
        cs.dropWhile fun c => isUpper c || isDigit c)
    else takeDecimal false cs
  | [] => none

/-- The tokens of a line, up to its end or a comment. Every token takes a character, so the length of the line
is fuel enough. -/
def tokens (fuel : Nat) (cs : List Char) : Except AsmError (List Token) :=
  match fuel, cs with
  | _, [] => .ok []
  | _, '-' :: '-' :: _ => .ok []
  | 0, _ => .error .badLine
  | fuel + 1, ' ' :: rest => tokens fuel rest
  | fuel + 1, cs =>
    match nextToken cs with
    | none => .error .badLine
    | some (t, rest) => (tokens fuel rest).map (t :: ·)

/-- An operand: one token, or a list of numbers in brackets (LOAD). -/
inductive Operand where
  | one (t : Token)
  | bytes (values : List Nat)
  deriving DecidableEq, Repr

/-- The value of an integer operand: decimal, hexadecimal, or a quoted character's code (R105). -/
def Token.int (t : Token) : Option Nat :=
  match t with
  | .number n => some n
  | .decimal false n 0 => some n
  | _ => none

/-- The numbers of a bracketed list after `[`, and the tokens after `]`. That a comma may stand before the `]` is the
model's choice (log entry 21). -/
def listBody (ts : List Token) : Option (List Nat × List Token) :=
  match ts with
  | .closeList :: rest => some ([], rest)
  | t :: .closeList :: rest => t.int.map fun n => ([n], rest)
  | t :: .comma :: rest =>
    match t.int, listBody rest with
    | some n, some (ns, rest') => some (n :: ns, rest')
    | _, _ => none
  | _ => none

/-- The operands of a line, separated by commas. -/
def operands (fuel : Nat) (ts : List Token) : Option (List Operand) :=
  match fuel with
  | 0 => none
  | fuel + 1 =>
    let first : Option (Operand × List Token) :=
      match ts with
      | .openList :: rest => (listBody rest).map fun r => (.bytes r.1, r.2)
      | t :: rest => some (.one t, rest)
      | [] => none
    match first with
    | none => none
    | some (o, []) => some [o]
    | some (o, .comma :: rest) => (operands fuel rest).map (o :: ·)
    | some _ => none

/-- An integer operand that must fit a field of `n` bits (R105). -/
def intField (n : Nat) (o : Operand) : Except AsmError (BitVec n) :=
  match o with
  | .one t =>
    match t.int with
    | some v => if v < 2 ^ n then .ok (BitVec.ofNat n v) else .error .doesNotFit
    | none => .error .badLine
  | .bytes _ => .error .badLine

/-- The binary32 pattern of a value of `units` times 2^-149 that binary32 can hold. -/
def f32Pattern (units : Nat) : Nat :=
  if units < 2 ^ 23 then units
  else (f32Shift units + 1) * 2 ^ 23 + (units / 2 ^ f32Shift units - 2 ^ 23)

/-- An `fvalue`: `f32:` and a pattern, or a decimal literal, which "stands for the binary32 value nearest to it,
ties to even" (R105). A literal beyond the binary32 range does not fit. -/
def floatField (o : Operand) : Except AsmError Word32 :=
  match o with
  | .one (.float p) => if p < 2 ^ 32 then .ok (BitVec.ofNat 32 p) else .error .doesNotFit
  | .one (.decimal negative digits places) =>
    let units := roundF32 (digits * f32Unit) (10 ^ places)
    if f32Limit ≤ units then .error .doesNotFit
    else .ok (BitVec.ofNat 32 ((if negative then 2 ^ 31 else 0) + f32Pattern units))
  | _ => .error .badLine

/-- A list of byte values, each within a byte. -/
def byteList (ns : List Nat) : Except AsmError (List Byte) :=
  if ∀ n ∈ ns, n < 256 then .ok (ns.map (BitVec.ofNat 8)) else .error .doesNotFit

/-- The mnemonics of R105 and the pseudo-operations of R106. -/
inductive Mnemonic where
  | init | clear | clrrect | load | setpx | char | str | uint | fix13 | fix21 | fix31 | fix30 | flush
  | pset | pclr | clrpage
  deriving DecidableEq, Repr

/-- The mnemonic a name spells. -/
def mnemonicOf (name : List Char) : Option Mnemonic :=
  List.lookup name
    [(['I', 'N', 'I', 'T'], .init), (['C', 'L', 'E', 'A', 'R'], .clear),
     (['C', 'L', 'R', 'R', 'E', 'C', 'T'], .clrrect), (['L', 'O', 'A', 'D'], .load),
     (['S', 'E', 'T', 'P', 'X'], .setpx), (['C', 'H', 'A', 'R'], .char), (['S', 'T', 'R'], .str),
     (['U', 'I', 'N', 'T'], .uint), (['F', 'I', 'X', '1', '3'], .fix13),
     (['F', 'I', 'X', '2', '1'], .fix21), (['F', 'I', 'X', '3', '1'], .fix31),
     (['F', 'I', 'X', '3', '0'], .fix30), (['F', 'L', 'U', 'S', 'H'], .flush),
     (['P', 'S', 'E', 'T'], .pset), (['P', 'C', 'L', 'R'], .pclr),
     (['C', 'L', 'R', 'P', 'A', 'G', 'E'], .clrpage)]

/-- A descriptor without payload, from an opcode and fields A, B and C; V is zero (R105). -/
def plain (op a b c : Byte) : Descriptor := ⟨opWord op a b c 0, []⟩

/-- A fixed-decimal operation's descriptor: y_page, x_symbol, fvalue (R105). -/
def fixLine (op : Byte) (y x v : Operand) : Except AsmError Descriptor := do
  return ⟨opWord op (← intField 8 y) (← intField 8 x) 0 (← floatField v), []⟩

/-- The descriptor of a mnemonic with its operands, in the order of R105; unused fields are zero. -/
def assembleOp (p : Params) (m : Mnemonic) (os : List Operand) : Except AsmError Descriptor :=
  match m, os with
  | .init, [bus, inv, contrast, precharge] => do
    return ⟨opWord 0x01 (← intField 8 bus) (← intField 8 inv) (← intField 8 contrast)
      (dOperand (← intField 8 precharge)), []⟩
  | .clear, [] => .ok (plain 0x02 0 0 0)
  | .clrrect, [xFirst, xLast, pageFirst, pageLast] => do
    return ⟨opWord 0x03 (← intField 8 xFirst) (← intField 8 xLast) (← intField 8 pageFirst)
      (dOperand (← intField 8 pageLast)), []⟩
  | .load, [size, .bytes bitmap] => do
    let v ← intField 32 size
    if bitmap.length ≠ v.toNat then throw .doesNotFit
    return ⟨opWord 0x04 0 0 0 v, ← byteList bitmap⟩
  | .setpx, [state, x, y] => do
    return plain 0x05 (← intField 8 state) (← intField 8 x) (← intField 8 y)
  | .char, [charCode, y, x] => do
    return plain 0x06 (← intField 8 charCode) (← intField 8 y) (← intField 8 x)
  | .str, [.one (.text codes), y, x] => do
    if 256 ≤ codes.length then throw .doesNotFit
    let d := plain 0x07 (BitVec.ofNat 8 codes.length) (← intField 8 y) (← intField 8 x)
    return { d with payload := ← byteList codes }
  | .uint, [y, x, value, count] => do
    return ⟨opWord 0x08 (← intField 8 y) (← intField 8 x) (← intField 8 count) (← intField 32 value), []⟩
  | .fix13, [y, x, v] => fixLine 0x09 y x v
  | .fix21, [y, x, v] => fixLine 0x0A y x v
  | .fix31, [y, x, v] => fixLine 0x0B y x v
  | .fix30, [y, x, v] => fixLine 0x0C y x v
  | .flush, [] => .ok (plain 0x0D 0 0 0)
  | .pset, [x, y] => do return plain 0x05 1 (← intField 8 x) (← intField 8 y)
  | .pclr, [x, y] => do return plain 0x05 0 (← intField 8 x) (← intField 8 y)
  | .clrpage, [page] => do
    let pg ← intField 8 page
    return ⟨opWord 0x03 0 (BitVec.ofNat 8 (p.width - 1)) pg (dOperand pg), []⟩
  | _, _ => .error .badLine

/-- One line to its descriptor (R105, R106). -/
def assemble (p : Params) (line : List Char) : Except AsmError Descriptor :=
  match tokens line.length line with
  | .error e => .error e
  | .ok (.name n :: ts) =>
    match mnemonicOf n, (if ts.isEmpty then some [] else operands ts.length ts) with
    | some m, some os => assembleOp p m os
    | _, _ => .error .badLine
  | .ok _ => .error .badLine

end Sys2Proof.Machine
end

