-- ==== Sys2Proof/Safety.lean ====
section
/-! DEFINITION. What counts as a safe run: the invariant of reachable states, and the contracts a host keeps so
that no step is refused (spec/60_exceptions.md R263). Then the words claims use: instructions one after another,
characters and digits as the sequence of CHARBODY the spec writes, and the operations that touch no device. -/

namespace Sys2Proof.Machine

/-- What OUTQ may hold while an operation is in flight: a rest of the list the operation queued. For a flush the
list is that of FB as it stands, since FB cannot change in between (20_memory.md R74); for an INIT, FB is
cleared and the list is R223's, for some operands. -/
def inFlight (s : State) : Prop :=
  match s.opkind with
  | .none => s.outq = []
  | .flush => s.outq <:+ flushTxns Config.hw s.fb
  | .init =>
    s.fb = Framebuffer.zeros Config.hw ∧
      ∃ bus inv contrast precharge, s.outq <:+ initTxns Config.hw bus inv contrast precharge

/-- The invariant: FB is in canonical form (R61), STATUS is one of its three codes (R37), BUSY = 1 exactly while
OUTQ is non-empty (R40) and exactly while an operation is in flight (R31), and OUTQ is a rest of that
operation's list (R74, R223, R225). -/
structure Inv (s : State) : Prop where
  fb_wf : Framebuffer.wf Config.hw s.fb
  status_code : s.status = Status.ok ∨ s.status = Status.sizeMismatch ∨ s.status = Status.illegalOp
  busy_outq : s.busy = true ↔ s.outq ≠ []
  busy_opkind : s.busy = true ↔ s.opkind ≠ .none
  in_flight : inFlight s

/-- The fixed-decimal operand `v`, scaled for `f` fractional digits, keeps the contract of R190 and R191: finite,
not below zero, and in F32_PRODUCT mode a product within the binary32 range. -/
abbrev fixedContract (v : Word32) (f : Nat) : Prop :=
  f32Exponent v ≠ 255 ∧ ¬ (f32Sign v = true ∧ f32Magnitude v ≠ 0) ∧
    (Config.hw.scaleMode = .f32Product → f32Product (f32Magnitude v) (10 ^ (f + 1)) < f32Limit)

/-- The operation keeps its contract (R263): no check of R265's fourth kind refuses it. -/
abbrev operationContract (i : Instr) : Prop :=
  match i with
  | .char c _ _ => inFont Config.hw c.toNat
  | .str _ _ _ text => ∀ c ∈ text, inFont Config.hw c.toNat
  | .fix13 _ _ v => fixedContract v 3
  | .fix21 _ _ v => fixedContract v 1
  | .fix31 _ _ v => fixedContract v 1
  | .fix30 _ _ v => fixedContract v 0
  | .init .. | .clear | .clrrect .. | .load .. | .setpx .. | .uint .. | .flush | .reserved _ => True
  | .outDisplayOff | .outScanDirection | .outAddrGroup00 | .outAddrGroup10 | .outContrast => True
  | .outSegmentRemap | .outNormalInverse _ | .outMultiplex | .outEntireDisplayOn => True
  | .outDisplayOffset | .outClockDivider | .outPrecharge | .outComPins | .outVcomh => True
  | .outChargePump | .outDisplayOn | .outColumnRange | .outPageAddress => True

/-- The host's request keeps the contracts of R263 in the state it meets: an Issue that the port takes has the
required payload and an operation within its contract; a framebuffer read is made while BUSY = 0 and inside
the buffer. -/
def requestContract (s : State) (r : Request) : Prop :=
  match r with
  | .issue d => s.busy = true ∨
      (d.payload.length = requiredLength d.word ∧ operationContract (decodeFields d.word d.payload))
  | .readByte i => s.busy = false ∧ i < Config.hw.fbSize
  | .readStatus => True
  | .writeStatus _ => True

/-! ## The words claims use -/

/-- Instructions one after another, up to the first that answers no next state. -/
def execAll (is : List Instr) (s : State) : Outcome :=
  match is with
  | [] => .next s
  | i :: rest =>
    match exec i s with
    | .next t => execAll rest t
    | .fault f => .fault f
    | .refused r => .refused r

/-- `k` steps, up to the first that answers no next state. -/
def steps (k : Nat) (s : State) : Outcome :=
  match k with
  | 0 => .next s
  | k + 1 =>
    match step s with
    | .next t => steps k t
    | .fault f => .fault f
    | .refused r => .refused r

/-- CHARBODY of each code in turn, in cells `xSymbol`, `xSymbol + 1`, ... (41_glyph.md R173, R174, R180). -/
def charBodies (p : Params) (codes : List Nat) (yPage xSymbol : Nat) (fb : Framebuffer) :
    Except Refusal Framebuffer :=
  match codes with
  | [] => .ok fb
  | c :: rest =>
    match charBody p c yPage xSymbol fb with
    | .ok fb' => charBodies p rest yPage (xSymbol + 1) fb'
    | .error e => .error e

/-- The `n` decimal digits of `value` as character codes, most significant first, "effectively
`value mod 10^digit_count`" (R174). -/
def decimalCodes (value n : Nat) : List Nat :=
  (List.range n).map fun i => 0x30 + value / 10 ^ (n - 1 - i) % 10

/-- The character codes of a fixed-decimal value `n` scaled by 10^f: `i` integer digits and, when f > 0, the
divider '.' and `f` fractional digits (R193). -/
def fixedCodes (n i f : Nat) : List Nat :=
  decimalCodes (n / 10 ^ f) i ++ if f = 0 then [] else 0x2E :: decimalCodes (n % 10 ^ f) f

/-- The memory-only operations of R101, and the reserved opcodes, which complete at once too (R99). -/
def isMemoryOnly (i : Instr) : Bool :=
  match i with
  | .clear | .clrrect .. | .load .. | .setpx .. | .char .. | .str .. | .uint .. => true
  | .fix13 .. | .fix21 .. | .fix31 .. | .fix30 .. | .reserved _ => true
  | .init .. | .flush => false
  | .outDisplayOff | .outScanDirection | .outAddrGroup00 | .outAddrGroup10 | .outContrast => false
  | .outSegmentRemap | .outNormalInverse _ | .outMultiplex | .outEntireDisplayOn => false
  | .outDisplayOffset | .outClockDivider | .outPrecharge | .outComPins | .outVcomh => false
  | .outChargePump | .outDisplayOn | .outColumnRange | .outPageAddress => false

/-- The instruction of each command byte of the table, with its byte (R103). -/
def panelCommands : List (Instr × Byte) :=
  [(.outDisplayOff, 0xAE), (.outScanDirection, 0xC8), (.outAddrGroup00, 0x00), (.outAddrGroup10, 0x10),
   (.outContrast, 0x81), (.outSegmentRemap, 0xA1), (.outNormalInverse false, 0xA6)] ++
  [(.outNormalInverse true, 0xA7), (.outMultiplex, 0xA8), (.outEntireDisplayOn, 0xA4),
   (.outDisplayOffset, 0xD3), (.outClockDivider, 0xD5), (.outPrecharge, 0xD9)] ++
  [(.outComPins, 0xDA), (.outVcomh, 0xDB), (.outChargePump, 0x8D), (.outDisplayOn, 0xAF),
   (.outColumnRange, 0x21), (.outPageAddress, 0x22)]

end Sys2Proof.Machine
end

