-- ==== Sys2Proof/Certificates/Slice0/Obligations.lean ====
section
/-! DEFINITION. The statements for the provers. Each says which rule of spec/ it formalises. -/

open Sys2Proof Sys2Proof.Machine

/-! ## Encoding -/

/-- Decoding an encoded well-formed instruction gives it back, on both ports (30_encoding.md R91, R92, R95, R96,
R103). That a true boolean operand is written 0x01 is the model's choice (log entry 13). -/
def Obligations.DecodeOfEncodeIsTheInstruction : Prop :=
  ∀ i : Instr, WellFormed i → decode (encode i) = .ok i

/-- On a byte carrier a descriptor is its little-endian word and its payload, and reading it leaves exactly the
bytes after it: any word, with anything in its unused fields and any non-zero byte for a true operand, whose payload
has the length the word names (20_memory.md R68, 30_encoding.md R97, R98). The operation read is the one of the
word's fields, and for an encoded instruction that instruction. -/
def Obligations.ByteCarrierRoundTrip : Prop :=
  (∀ (d : Descriptor) (rest : List Byte), d.payload.length = requiredLength d.word →
    readDescriptor (d.bytes ++ rest) = .ok (d, rest) ∧
    decodeBytes (d.bytes ++ rest) = .ok (decodeFields d.word d.payload, rest)) ∧
  ∀ (i : Instr) (d : Descriptor) (rest : List Byte), WellFormed i → encode i = .host d →
    decodeBytes (d.bytes ++ rest) = .ok (i, rest)

/-- The worked encodings of 30_encoding.md R107, each with its little-endian bytes (of the LOAD of 1024 bytes: the
payload length its word requires), the lowest reserved opcode above the map (R95, R99), and some command bytes of
R103. That 0x3F, which R103 lists as an emitted byte and the opcode table does not list as a row, has no name is the
model's choice (log entry 8). -/
def Obligations.WorkedEncodingsDecode : Prop :=
  decodeHost ⟨0x000000F17F000001, []⟩ = .ok (.init false false 0x7F 0xF1) ∧
  bytesOfWord 0x000000F17F000001 = [0x01, 0x00, 0x00, 0x7F, 0xF1, 0x00, 0x00, 0x00] ∧
  decodeHost ⟨0x0000000000000002, []⟩ = .ok .clear ∧
  bytesOfWord 0x0000000000000002 = [0x02, 0x00, 0x00, 0x00, 0x00, 0x00, 0x00, 0x00] ∧
  decodeHost ⟨0x0000000201140A03, []⟩ = .ok (.clrrect 10 20 1 2) ∧
  bytesOfWord 0x0000000201140A03 = [0x03, 0x0A, 0x14, 0x01, 0x02, 0x00, 0x00, 0x00] ∧
  decodeHost ⟨0x000000000A030105, []⟩ = .ok (.setpx true 3 10) ∧
  bytesOfWord 0x000000000A030105 = [0x05, 0x01, 0x03, 0x0A, 0x00, 0x00, 0x00, 0x00] ∧
  decodeHost ⟨0x0000000000004106, []⟩ = .ok (.char 0x41 0 0) ∧
  bytesOfWord 0x0000000000004106 = [0x06, 0x41, 0x00, 0x00, 0x00, 0x00, 0x00, 0x00] ∧
  decodeHost ⟨0x0000000014030207, [0x41, 0x42]⟩ = .ok (.str 2 3 20 [0x41, 0x42]) ∧
  bytesOfWord 0x0000000014030207 = [0x07, 0x02, 0x03, 0x14, 0x00, 0x00, 0x00, 0x00] ∧
  decodeHost ⟨0x000004D203010208, []⟩ = .ok (.uint 2 1 3 1234) ∧
  bytesOfWord 0x000004D203010208 = [0x08, 0x02, 0x01, 0x03, 0xD2, 0x04, 0x00, 0x00] ∧
  decodeHost ⟨0x4145999A0000040A, []⟩ = .ok (.fix21 4 0 0x4145999A) ∧
  bytesOfWord 0x4145999A0000040A = [0x0A, 0x04, 0x00, 0x00, 0x9A, 0x99, 0x45, 0x41] ∧
  decodeHost ⟨0x000000000000000D, []⟩ = .ok .flush ∧
  bytesOfWord 0x000000000000000D = [0x0D, 0x00, 0x00, 0x00, 0x00, 0x00, 0x00, 0x00] ∧
  requiredLength 0x0000040000000004 = 1024 ∧
  bytesOfWord 0x0000040000000004 = [0x04, 0x00, 0x00, 0x00, 0x00, 0x04, 0x00, 0x00] ∧
  decodeHost ⟨0x000000000000000E, []⟩ = .ok (.reserved 0x0E) ∧
  decodePanel 0xAE = .ok .outDisplayOff ∧ decodePanel 0xA7 = .ok (.outNormalInverse true) ∧
  decodePanel 0x22 = .ok .outPageAddress ∧ decodePanel 0x3F = .error .notCommandByte

/-- 30_encoding.md R98: a field R96 marks unused may hold any value. Two words that agree on the bits their opcode
uses decode alike. -/
def Obligations.UnusedFieldsAreIgnored : Prop :=
  ∀ (w w' : OpWord) (payload : List Byte),
    w &&& usedMask (opField w) = w' &&& usedMask (opField w) →
      decodeHost ⟨w, payload⟩ = decodeHost ⟨w', payload⟩

/-- 30_encoding.md R100: the required length is V for LOAD, A for STR and 0 for every other opcode, reserved
opcodes included; any other length is refused at the port, before anything else is looked at. -/
def Obligations.PayloadLengthMismatchIsRefused : Prop :=
  ∀ d : Descriptor,
    requiredLength d.word =
      (if opField d.word = 0x04 then (vField d.word).toNat
       else if opField d.word = 0x07 then (aField d.word).toNat else 0) ∧
    ∀ (s : State) (rest : List Request) (ts : List Turn),
      s.turns = .host :: ts → s.requests = .issue d :: rest → s.busy = false →
      d.payload.length ≠ requiredLength d.word → step s = .refused .payloadLengthMismatch

/-- The meanings of LOAD and STR refuse a term whose payload is not as long as it says. The port never passes one on
(30_encoding.md R100): that the meanings refuse it too is the model's choice (log entry 16). -/
def Obligations.IllFormedTermsAreRefused : Prop :=
  (∀ (s : State) (size : Word32) (bitmap : List Byte), s.busy = false → bitmap.length ≠ size.toNat →
    exec (.load size bitmap) s = .refused .payloadLengthMismatch) ∧
  (∀ (s : State) (n y x : Byte) (text : List Byte), s.busy = false → text.length ≠ n.toNat →
    exec (.str n y x text) s = .refused .payloadLengthMismatch)

/-! ## One step -/

/-- The host's turn runs the operation its oldest request decodes to (30_encoding.md R101), and the transport's turn
the instruction the command byte at the head of OUTQ decodes to. The form is the model's choice: the turn is used
up (log entry 1) and the request is used up (log entry 2); that Accept of a command byte is an instruction (log
entry 7), named by the byte's value alone (log entry 8). -/
def Obligations.StepRunsTheDecodedInstruction : Prop :=
  (∀ (s : State) (d : Descriptor) (rest : List Request) (ts : List Turn) (i : Instr),
    s.turns = .host :: ts → s.requests = .issue d :: rest → s.busy = false →
    decode (.host d) = .ok i → step s = exec i { s with turns := ts, requests := rest }) ∧
  (∀ (s : State) (b : Byte) (q : List Txn) (ts : List Turn) (i : Instr),
    s.turns = .transport :: ts → s.outq = Txn.cmd b :: q →
    decode (.panel b) = .ok i → step s = exec i { s with turns := ts })

/-- While BUSY = 1 the host's Issue is held: the request stays and nothing changes, whatever the descriptor
(30_encoding.md R101, 70_reset_and_hazards.md R295). That the meaning itself then changes nothing is the model's
choice (log entry 10). -/
def Obligations.IssueIsHeldWhileBusy : Prop :=
  (∀ (s : State) (d : Descriptor) (rest : List Request) (ts : List Turn),
    s.turns = .host :: ts → s.requests = .issue d :: rest → s.busy = true →
      step s = .next { s with turns := ts }) ∧
  (∀ (s : State) (w : OpWord) (payload : List Byte), s.busy = true →
    exec (decodeFields w payload) s = .next s)

/-- 42_panel.md R230 and R226: Accept moves the head of OUTQ to OUTLOG; the last acceptance clears BUSY and OPKIND,
makes PSTATE READY when the operation was an INIT, and leaves STATUS alone. That the transport moves when its turn
comes in `turns`, and that with OUTQ empty it only uses up that turn, is the model's form of R230's free choice (log
entry 1). -/
def Obligations.AcceptMovesTheHeadAndCompletes : Prop :=
  ∀ (s : State) (ts : List Turn), s.turns = .transport :: ts →
    (s.outq = [] → step s = .next { s with turns := ts }) ∧
    (∀ t : Txn, s.outq = [t] → step s = .next { s with
      turns := ts, outq := [], outlog := s.outlog ++ [t], busy := false, opkind := .none,
      pstate := if s.opkind = .init then .ready else s.pstate }) ∧
    (∀ (t u : Txn) (q : List Txn), s.outq = t :: u :: q → step s = .next { s with
      turns := ts, outq := u :: q, outlog := s.outlog ++ [t] })

/-- Every command byte of the opcode table, at the head of OUTQ, is taken by its own instruction: the transaction
goes to OUTLOG, and the last one completes the operation (42_panel.md R221, R226, R230). That a row OUT_ is run
by the transport's Accept, and holds when its byte is not at the head, is the model's choice (log entry 7). -/
def Obligations.CommandBytesAreAccepted : Prop :=
  ∀ (i : Instr) (b : Byte), (i, b) ∈ panelCommands →
    encode i = .panel b ∧
    (∀ (s : State) (q : List Txn), s.outq = Txn.cmd b :: q →
      exec i s = .next { s with
        outq := q, outlog := s.outlog ++ [Txn.cmd b]
        busy := if q = [] then false else s.busy
        opkind := if q = [] then .none else s.opkind
        pstate := if q = [] ∧ s.opkind = .init then .ready else s.pstate }) ∧
    ∀ s : State, s.outq.head? ≠ some (Txn.cmd b) → exec i s = .next s

/-- 10_state.md R39: only initialize makes PSTATE READY, and does so when its last transaction is accepted; nothing
returns PSTATE to UNINIT except reset. -/
def Obligations.PstateIsOneWay : Prop :=
  (∀ s s' : State, step s = .next s' →
    (s.pstate = .uninit → s'.pstate = .ready →
      ∃ (ts : List Turn) (t : Txn), s.turns = .transport :: ts ∧ s.opkind = .init ∧ s.outq = [t]) ∧
    (s.pstate = .ready → s'.pstate = .uninit → ∃ ts, s.turns = .reset :: ts)) ∧
  ∀ (s : State) (ts : List Turn) (t : Txn),
    s.turns = .transport :: ts → s.opkind = .init → s.outq = [t] →
      ∃ s', step s = .next s' ∧ s'.pstate = .ready

/-- No step clears BUSY without an acceptance by the transport, but for a reset (10_state.md R40, 42_panel.md R229):
the model keeps the hang. -/
def Obligations.BusyFallsOnlyByTheLastAcceptance : Prop :=
  ∀ s s' : State, step s = .next s' → s.busy = true → s'.busy = false →
    (∃ ts t, s.turns = .transport :: ts ∧ s.outq = [t] ∧ s'.outlog = s.outlog ++ [t]) ∨
    (∃ ts, s.turns = .reset :: ts)

/-- A stalled transport: while only the host has turns, an operation in flight stays in flight and the host's next
operation stays held, for any number of steps (10_state.md R40, 42_panel.md R229, R230). -/
def Obligations.StalledTransportHangs : Prop :=
  ∀ (s : State) (d : Descriptor) (rest : List Request) (k : Nat),
    s.busy = true → s.requests = .issue d :: rest → (∀ u ∈ s.turns, u = .host) →
      steps k s = .next { s with turns := s.turns.drop k }

/-- STATUS is written by accepted operations only: a step that changes it performs an Issue while BUSY = 0, or is a
reset (10_state.md R38). -/
def Obligations.StatusChangesOnlyOnAcceptedOperations : Prop :=
  ∀ s s' : State, step s = .next s' → s'.status ≠ s.status →
    (∃ ts d rest, s.turns = .host :: ts ∧ s.requests = .issue d :: rest ∧ s.busy = false) ∨
    (∃ ts, s.turns = .reset :: ts)

/-- Every operation the block accepts writes STATUS (10_state.md R38, 60_exceptions.md R261): SIZE_MISMATCH for a LOAD
of the wrong size, ILLEGAL_OP for a reserved opcode, and OK for every other operation. An operation that reports
an error has no other effect (R260). -/
def Obligations.EveryAcceptedOperationWritesStatus : Prop :=
  ∀ (w : OpWord) (payload : List Byte) (s t : State), s.busy = false →
    payload.length = requiredLength w → exec (decodeFields w payload) s = .next t →
      (t.status =
        if isReservedOp (opField w) then 0x02
        else if opField w = 0x04 ∧ (vField w).toNat ≠ 1024 then 0x01 else 0x00) ∧
      (t.status ≠ 0x00 → t = { s with status := t.status })

/-- While an operation is in flight FB does not change, until a reset (20_memory.md R74). -/
def Obligations.FramebufferIsStillWhileBusy : Prop :=
  ∀ s s' : State, step s = .next s' → s.busy = true →
    s'.fb = s.fb ∨ ∃ ts, s.turns = .reset :: ts

/-- The output is one sequence that grows at its end only: what was accepted and what is queued stay, in order,
before anything new (20_memory.md R76, 42_panel.md R227). In a state that keeps the invariant, and but for a
reset. -/
def Obligations.OutputGrowsAtItsEndOnly : Prop :=
  ∀ s s' : State, Inv s → step s = .next s' →
    (∃ new, s'.outlog ++ s'.outq = s.outlog ++ s.outq ++ new) ∨ ∃ ts, s.turns = .reset :: ts

/-- 30_encoding.md R102 and 42_panel.md R221: in a state that keeps the invariant, everything the block has queued is
BusInit, which puts nothing on the bus, or a write to PERIPH_ADDR of one byte framed CTRL_CMD or of a page's 128
bytes framed CTRL_DATA; and the two framings differ (00_scope.md R9). -/
def Obligations.QueuedTransactionsAreCommandsOrPages : Prop :=
  Config.hw.ctrlCmd ≠ Config.hw.ctrlData ∧
  ∀ s : State, Inv s → ∀ t ∈ s.outq,
    (t = .busInit ∧ t.bus Config.hw = none) ∨
    (∃ b : Byte, t.bus Config.hw = some (Config.hw.periphAddr, Config.hw.ctrlCmd, [b])) ∨
    (∃ bytes : List Byte, bytes.length = 128 ∧
      t.bus Config.hw = some (Config.hw.periphAddr, Config.hw.ctrlData, bytes))

/-- "It is not block state: the block never reads it" (10_state.md R42): another OUTLOG changes nothing a step does
but OUTLOG itself, which only grows by the same transactions. -/
def Obligations.BlockNeverReadsOutlog : Prop :=
  ∀ (s s' : State) (log : List Txn), step s = .next s' →
    ∃ log', step { s with outlog := log } = .next { s' with outlog := log' } ∧
      ∀ new, s'.outlog = s.outlog ++ new → (∀ ts, s.turns ≠ .reset :: ts) → log' = log ++ new

/-! ## The invariant, and safe runs -/

/-- The invariant holds right after reset. -/
def Obligations.ResetKeepsTheInvariant : Prop := Inv State.reset

/-- Every step keeps the invariant: FB stays in canonical form (20_memory.md R61), STATUS one of its codes (10_state.md
R37), BUSY tied to OUTQ and OPKIND (R31, R40), and OUTQ a rest of the list of the operation in flight, over FB
as it stands (20_memory.md R74, 42_panel.md R223, R225). -/
def Obligations.EveryStepKeepsTheInvariant : Prop :=
  ∀ s s' : State, Inv s → step s = .next s' → Inv s'

/-- A step is refused exactly when it is the host's turn and its request breaks a contract of 60_exceptions.md R263;
every other step answers a next state. -/
def Obligations.OnlyContractViolationsAreRefused : Prop :=
  ∀ s : State, Inv s →
    ((∃ r, step s = .refused r) ↔
      ∃ ts req rest, s.turns = .host :: ts ∧ s.requests = req :: rest ∧ ¬ requestContract s req) ∧
    ((∃ s', step s = .next s') ↔ ¬ ∃ r, step s = .refused r)

/-! ## Reset -/

/-- 70_reset_and_hazards.md R290: the state after reset. FB holds free bytes, one for each of the 1024 addresses:
that they are draw 0 of Config.fbReset is the model's form of FB_RESET (log entry 3). -/
def Obligations.StateAfterReset : Prop :=
  State.reset.pstate = .uninit ∧ State.reset.status = 0x00 ∧ State.reset.busy = false ∧
  State.reset.opkind = .none ∧ State.reset.outq = [] ∧ State.reset.outlog = [] ∧
  statusWord State.reset = 0x00000000 ∧
  ∀ i, Framebuffer.read State.reset.fb i = if i < 1024 then some (Config.fbReset 0 i) else none

/-- A reset turn puts every piece of the block's state and the observation at its reset value, and FB at a fresh
draw of FB_RESET (70_reset_and_hazards.md R290 to R292). That a reset may come in a run, and leaves the host's
requests, its replies and the turns alone, is the model's choice (log entry 12). -/
def Obligations.ResetTurnRestoresTheBlock : Prop :=
  ∀ (s : State) (ts : List Turn), s.turns = .reset :: ts →
    ∃ t, step s = .next t ∧ t.pstate = .uninit ∧ t.status = 0x00 ∧ t.busy = false ∧ t.opkind = .none ∧
      t.outq = [] ∧ t.outlog = [] ∧ t.requests = s.requests ∧ t.replies = s.replies ∧ t.turns = ts ∧
      t.resets = s.resets + 1 ∧
      ∀ i, Framebuffer.read t.fb i =
        if i < 1024 then some (Config.fbReset (s.resets + 1) i) else none

/-! ## The host's reads -/

/-- 20_memory.md R65: HostRead(i) returns FB[i] when BUSY = 0 and i < FB_SIZE, with no side effect, and is refused
otherwise. FB in canonical form; the reply goes to the host's own list (log entry 11). -/
def Obligations.HostReadReturnsTheByte : Prop :=
  ∀ (s : State) (i : Nat) (rest : List Request) (ts : List Turn),
    Framebuffer.wf Config.hw s.fb → s.turns = .host :: ts → s.requests = .readByte i :: rest →
    (s.busy = false → i < 1024 → ∃ b, Framebuffer.read s.fb i = some b ∧
      step s = .next { s with turns := ts, requests := rest, replies := s.replies ++ [.byte b] }) ∧
    (s.busy = true ∨ 1024 ≤ i → step s = .refused .hostReadUndefined)

/-- 10_state.md R37 and 20_memory.md R66: STATUSWORD is STATUS in 7:0, BUSY in 8, PSTATE in 9 and zero above; it may be
read at any time, with no side effect; writes to it are ignored. That the value goes to the host's own list, and that
a write is a request of the host, is the model's form (log entries 6 and 11). -/
def Obligations.StatuswordIsReadAnyTimeAndNeverWritten : Prop :=
  ∀ s : State,
    (statusWord s).extractLsb' 0 8 = s.status ∧ (statusWord s).getLsbD 8 = s.busy ∧
    (statusWord s).getLsbD 9 = decide (s.pstate = .ready) ∧
    (∀ k, 10 ≤ k → (statusWord s).getLsbD k = false) ∧
    (∀ (rest : List Request) (ts : List Turn), s.turns = .host :: ts → s.requests = .readStatus :: rest →
      step s = .next { s with
        turns := ts, requests := rest, replies := s.replies ++ [.statusWord (statusWord s)] }) ∧
    (∀ (v : Word32) (rest : List Request) (ts : List Turn),
      s.turns = .host :: ts → s.requests = .writeStatus v :: rest →
      step s = .next { s with turns := ts, requests := rest })

/-! ## Framebuffer operations -/

/-- 40_framebuffer.md R131: CLEAR makes every byte 0 and STATUS OK, changes nothing else, and is idempotent. -/
def Obligations.ClearZeroesEveryByte : Prop :=
  (∀ (w : OpWord) (payload : List Byte), opField w = 0x02 → decodeFields w payload = .clear) ∧
  ∀ s : State, s.busy = false →
    ∃ t, exec .clear s = .next t ∧ t = { s with fb := t.fb, status := 0x00 } ∧
      (∀ i, Framebuffer.read t.fb i = if i < 1024 then some 0x00 else none) ∧
      (∀ x y, x < 128 → y < 64 → Framebuffer.pixel Config.hw t.fb x y = some false) ∧
      exec .clear t = .next t

/-- 40_framebuffer.md R135 and R136: CLRRECT makes a byte 0 exactly when its column and page lie in the rectangle and
in the buffer; every other byte keeps its value; STATUS is OK and nothing else changes. On a buffer in canonical
form `CLRRECT 0, WIDTH-1, 0, PAGES-1` equals CLEAR. -/
def Obligations.ClrrectZeroesExactlyTheRectangle : Prop :=
  (∀ (w : OpWord) (payload : List Byte), opField w = 0x03 →
    decodeFields w payload = .clrrect (aField w) (bField w) (cField w) (dField w)) ∧
  (∀ (s : State) (xf xl pf pl : Byte), s.busy = false →
    ∃ t, exec (.clrrect xf xl pf pl) s = .next t ∧ t = { s with fb := t.fb, status := 0x00 } ∧
      ∀ i, Framebuffer.read t.fb i =
        if (xf.toNat ≤ i % 128 ∧ i % 128 ≤ xl.toNat) ∧ (pf.toNat ≤ i / 128 ∧ i / 128 ≤ pl.toNat) ∧ i < 1024
        then (Framebuffer.read s.fb i).map fun _ => 0x00
        else Framebuffer.read s.fb i) ∧
  ∀ s : State, Framebuffer.wf Config.hw s.fb → exec (.clrrect 0 127 0 7) s = exec .clear s

/-- 40_framebuffer.md R140: LOAD of FB_SIZE bytes replaces the buffer byte for byte with STATUS OK; any other size
leaves FB as it was and sets STATUS to SIZE_MISMATCH. -/
def Obligations.LoadReplacesOrReportsMismatch : Prop :=
  (∀ (w : OpWord) (payload : List Byte), opField w = 0x04 →
    decodeFields w payload = .load (vField w) payload) ∧
  ∀ (s : State) (size : Word32) (bitmap : List Byte), s.busy = false → bitmap.length = size.toNat →
    (size.toNat ≠ 1024 → exec (.load size bitmap) s = .next { s with status := 0x01 }) ∧
    (size.toNat = 1024 → ∃ t, exec (.load size bitmap) s = .next t ∧
      t = { s with fb := t.fb, status := 0x00 } ∧ ∀ i, Framebuffer.read t.fb i = bitmap[i]?)

/-- 40_framebuffer.md R150: SETPX sets or clears bit y mod 8 of byte (y div 8)*WIDTH + x and nothing else; out of
range it is a no-op; STATUS is OK either way. -/
def Obligations.SetpxWritesOneBit : Prop :=
  (∀ (w : OpWord) (payload : List Byte), opField w = 0x05 →
    decodeFields w payload = .setpx (decide (aField w ≠ 0)) (bField w) (cField w)) ∧
  ∀ (s : State) (state : Bool) (x y : Byte), s.busy = false →
    ∃ t, exec (.setpx state x y) s = .next t ∧ t = { s with fb := t.fb, status := 0x00 } ∧
      (¬ (x.toNat < 128 ∧ y.toNat < 64) → t.fb = s.fb) ∧
      (x.toNat < 128 ∧ y.toNat < 64 → ∀ i, Framebuffer.read t.fb i =
        if i = y.toNat / 8 * 128 + x.toNat then
          (Framebuffer.read s.fb i).map fun v =>
            if state then v ||| (1#8 <<< (y.toNat % 8)) else v &&& ~~~(1#8 <<< (y.toNat % 8))
        else Framebuffer.read s.fb i)

/-- 40_framebuffer.md R151, the set_pixel laws: after SETPX pixel (x, y) reads as asked and every other pixel is
unchanged; out of range FB is unchanged. FB in canonical form. -/
def Obligations.SetpxPixelLaws : Prop :=
  ∀ (s : State) (state : Bool) (x y : Byte), s.busy = false → Framebuffer.wf Config.hw s.fb →
    ∃ t, exec (.setpx state x y) s = .next t ∧
      (x.toNat < 128 → y.toNat < 64 →
        Framebuffer.pixel Config.hw t.fb x.toNat y.toNat = some state ∧
        ∀ x' y', x' < 128 → y' < 64 → (x' ≠ x.toNat ∨ y' ≠ y.toNat) →
          Framebuffer.pixel Config.hw t.fb x' y' = Framebuffer.pixel Config.hw s.fb x' y') ∧
      (128 ≤ x.toNat ∨ 64 ≤ y.toNat → t.fb = s.fb)

/-- 20_memory.md R63: the pixel at (x, y) is bit y mod 8 of byte (y div 8) * WIDTH + x; each pixel maps to exactly one
(byte, bit) pair of the buffer, and each pair to exactly one pixel. -/
def Obligations.PixelsAndBitsAreOneToOne : Prop :=
  (∀ (fb : Framebuffer) (x y : Nat), Framebuffer.pixel Config.hw fb x y =
    (Framebuffer.read fb (y / 8 * 128 + x)).map fun b => b.getLsbD (y % 8)) ∧
  (∀ x y, x < 128 → y < 64 → y / 8 * 128 + x < 1024 ∧ y % 8 < 8) ∧
  ∀ i b, i < 1024 → b < 8 →
    ∃ x y, (x < 128 ∧ y < 64 ∧ y / 8 * 128 + x = i ∧ y % 8 = b) ∧
      ∀ x' y', x' < 128 → y' < 64 → y' / 8 * 128 + x' = i → y' % 8 = b → x' = x ∧ y' = y

/-- 30_encoding.md R95 and R99: a word with a reserved opcode stands for RESERVED, which completes at once with
STATUS = ILLEGAL_OP and no other effect. The instruction does not hold a payload: at the port a reserved opcode
with a payload that is not empty is refused before it is decoded (R100), although R99 says that any payload is
ignored (log entry 22). -/
def Obligations.ReservedOpcodesOnlyReportIllegalOp : Prop :=
  (∀ (w : OpWord) (payload : List Byte), (opField w = 0x00 ∨ 0x0E ≤ (opField w).toNat) →
    decodeFields w payload = .reserved (opField w)) ∧
  ∀ (s : State) (op : Byte), s.busy = false →
    exec (.reserved op) s = .next { s with status := 0x02 }

/-- The memory-only operations and the reserved opcodes touch FB and STATUS alone: PSTATE, BUSY, OPKIND, OUTQ, OUTLOG
and the agents around the block stay as they were (20_memory.md R70, 30_encoding.md R101). -/
def Obligations.MemoryOnlyOperationsTouchNoDevice : Prop :=
  ∀ (i : Instr) (s t : State), isMemoryOnly i = true → exec i s = .next t →
    t = { s with fb := t.fb, status := t.status }

/-! ## Glyphs and numbers -/

/-- 41_glyph.md R170 to R173 and R176, in any configuration R9 allows: CHARBODY refuses exactly the codes outside the
font; otherwise it stores the cell byte of each column at its offset when that lies in the buffer, page rows in
order so that a later row wins where two share an offset, and leaves every other byte alone. FB in canonical
form. -/
def Obligations.CharbodyStoresItsCell : Prop :=
  ∀ (p : Params) (c y x : Nat) (fb : Framebuffer), p.Valid → Framebuffer.wf p fb →
    (charBody p c y x fb = .error .fontCodeOutOfRange ↔ ¬ (p.firstCode ≤ c ∧ c ≤ p.lastCode)) ∧
    (p.firstCode ≤ c → c ≤ p.lastCode → ∃ fb', charBody p c y x fb = .ok fb' ∧ Framebuffer.wf p fb' ∧
      (∀ r j off, r < p.fontPages → j < p.cellW → off = (y + r) * p.width + x * p.cellW + j →
        off < p.fbSize →
        (∀ r' j', r < r' → r' < p.fontPages → j' < p.cellW → (y + r') * p.width + x * p.cellW + j' ≠ off) →
        Framebuffer.read fb' off = some
          (if p.spaceLead ≤ j ∧ j < p.spaceLead + p.fontXSize then p.glyph c r (j - p.spaceLead)
            else 0x00)) ∧
      (∀ i, (∀ r j, r < p.fontPages → j < p.cellW → (y + r) * p.width + x * p.cellW + j ≠ i) →
        Framebuffer.read fb' i = Framebuffer.read fb i))

/-- 41_glyph.md R175: CHAR runs on every code of the font, whatever its position: FB becomes what CHARBODY of its
operands makes of it, STATUS is OK and nothing else changes. A code outside the font, and no other, is refused. -/
def Obligations.CharDrawsItsCell : Prop :=
  (∀ (w : OpWord) (payload : List Byte), opField w = 0x06 →
    decodeFields w payload = .char (aField w) (bField w) (cField w)) ∧
  ∀ (s : State) (c y x : Byte), s.busy = false →
    (exec (.char c y x) s = .refused .fontCodeOutOfRange ↔
      ¬ (Config.hw.firstCode ≤ c.toNat ∧ c.toNat ≤ Config.hw.lastCode)) ∧
    (Config.hw.firstCode ≤ c.toNat → c.toNat ≤ Config.hw.lastCode →
      ∃ t, exec (.char c y x) s = .next t ∧ t = { s with fb := t.fb, status := 0x00 } ∧
        charBody Config.hw c.toNat y.toNat x.toNat s.fb = .ok t.fb)

/-- 41_glyph.md R172 and 90_conflicts.md C1, vectors L2-CHAR-2 and L2-CHAR-4 in the reference configuration: at the
right edge the columns land on the next page, and past the end of the buffer they are skipped. -/
def Obligations.GlyphColumnsWrapToTheNextPage : Prop :=
  ∀ (g : Nat → Nat → Nat → Byte) (mode : ScaleMode) (fb : Framebuffer),
    Framebuffer.wf (Params.reference g mode) fb →
    ∃ fb', charBody (Params.reference g mode) 0x41 0 21 fb = .ok fb' ∧
      (∀ j, j < 5 → Framebuffer.read fb' (126 + j) = some (g 0x41 0 j)) ∧
      Framebuffer.read fb' 131 = some 0x00 ∧
      (∀ i, (i < 126 ∨ 131 < i) → Framebuffer.read fb' i = Framebuffer.read fb i) ∧
    ∃ fb'', charBody (Params.reference g mode) 0x41 7 21 fb = .ok fb'' ∧
      Framebuffer.read fb'' 1022 = some (g 0x41 0 0) ∧ Framebuffer.read fb'' 1023 = some (g 0x41 0 1) ∧
      (∀ i, (i < 1022 ∨ 1023 < i) → Framebuffer.read fb'' i = Framebuffer.read fb i)

/-- 41_glyph.md R180: STR draws its characters by CHARBODY, left to right from x_symbol, which is not reduced modulo
256; a text of length 0 draws nothing; STATUS is OK and nothing else changes. A text with a code outside the font,
and no other, is refused as a whole. -/
def Obligations.StrDrawsItsCharacters : Prop :=
  (∀ (w : OpWord) (payload : List Byte), opField w = 0x07 →
    decodeFields w payload = .str (aField w) (bField w) (cField w) payload) ∧
  (∀ (s : State) (n y x : Byte) (text : List Byte), s.busy = false → text.length = n.toNat →
    (exec (.str n y x text) s = .refused .fontCodeOutOfRange ↔
      ∃ c ∈ text, ¬ (Config.hw.firstCode ≤ c.toNat ∧ c.toNat ≤ Config.hw.lastCode))) ∧
  ∀ (s : State) (n y x : Byte) (text : List Byte), s.busy = false → text.length = n.toNat →
    (∀ c ∈ text, Config.hw.firstCode ≤ c.toNat ∧ c.toNat ≤ Config.hw.lastCode) →
    ∃ t, exec (.str n y x text) s = .next t ∧ t = { s with fb := t.fb, status := 0x00 } ∧
      charBodies Config.hw (text.map BitVec.toNat) y.toNat x.toNat s.fb = .ok t.fb

/-- 30_encoding.md R106: a string of at least one character, all of whose cells have an 8-bit position, does what CHAR
of each character does in order. -/
def Obligations.StrEqualsSequentialChars : Prop :=
  ∀ (s : State) (n y x : Byte) (text : List Byte), s.busy = false → text ≠ [] → text.length = n.toNat →
    x.toNat + (text.length - 1) ≤ 255 →
    (∀ c ∈ text, Config.hw.firstCode ≤ c.toNat ∧ c.toNat ≤ Config.hw.lastCode) →
    exec (.str n y x text) s =
      execAll (text.zipIdx.map fun ck => .char ck.1 y (x + BitVec.ofNat 8 ck.2)) s

/-- 41_glyph.md R174 and R185: UINT draws exactly digit_count decimal digits of the value, zero-padded, most
significant first, by CHARBODY of 0x30 + digit; STATUS is OK and nothing else changes. -/
def Obligations.UintDrawsItsDigits : Prop :=
  (∀ (w : OpWord) (payload : List Byte), opField w = 0x08 →
    decodeFields w payload = .uint (aField w) (bField w) (cField w) (vField w)) ∧
  ∀ (s : State) (y x n : Byte) (v : Word32), s.busy = false →
    ∃ t, exec (.uint y x n v) s = .next t ∧ t = { s with fb := t.fb, status := 0x00 } ∧
      charBodies Config.hw (decimalCodes v.toNat n.toNat) y.toNat x.toNat s.fb = .ok t.fb

/-- The digits shown are those of `value mod 10^digit_count` (41_glyph.md R174, R185). -/
def Obligations.UintShowsTheValueModulo : Prop :=
  ∀ (s : State) (y x n : Byte) (v v' : Word32),
    v.toNat % 10 ^ n.toNat = v'.toNat % 10 ^ n.toNat →
      exec (.uint y x n v) s = exec (.uint y x n v') s

/-- 41_glyph.md R190: FDECODE, with s = V[31], e = V[30:23], m = V[22:0], in units of 2^-149: m for e = 0 and
(2^23 + m) * 2^(e-1) otherwise. Infinities and NaNs are refused, then values below zero; -0.0 is 0. The
layout is general knowledge (log entry 19). -/
def Obligations.FdecodeReadsBinary32 : Prop :=
  ∀ v : Word32,
    let e := v.toNat / 2 ^ 23 % 2 ^ 8
    let m := v.toNat % 2 ^ 23
    let units := if e = 0 then m else (2 ^ 23 + m) * 2 ^ (e - 1)
    fdecode v =
      if e = 255 then .error .floatNotFinite
      else if 2 ^ 31 ≤ v.toNat ∧ units ≠ 0 then .error .floatNegative
      else .ok units

/-- round_binary32_nearest_even of 41_glyph.md R191: the result has 24 significant bits, no value with 24 significant
bits lies nearer, and of two equally near ones it is the one with the even last place. The format is general
knowledge (log entry 19). -/
def Obligations.ProductRoundsToNearestEven : Prop :=
  ∀ x : Nat,
    ∃ q k, q ≤ 2 ^ 24 ∧ roundF32 x 1 = q * 2 ^ k ∧ (k = 0 ∨ 2 ^ 23 ≤ q) ∧
      (∀ m j, m < 2 ^ 24 → (x : Int) - roundF32 x 1 ≤ |(x : Int) - (m * 2 ^ j : Nat)| ∧
        (roundF32 x 1 : Int) - x ≤ |(x : Int) - (m * 2 ^ j : Nat)|) ∧
      (2 * x = 2 * (q * 2 ^ k) + 2 ^ k ∨ 2 * x + 2 ^ k = 2 * (q * 2 ^ k) → q % 2 = 0)

/-- 41_glyph.md R192 and R193 with R195 to R198: FIX13, FIX21, FIX31 and FIX30 draw I integer digits, the divider and F
fractional digits of N, where S is the scaled operand and N = S div 10, plus 1 when the discarded digit is at
least 5; the integer part is taken modulo 10^I; STATUS is OK and nothing else changes. The
operand's format is general knowledge (log entry 19). -/
def Obligations.FixedDecimalsDrawTheRoundedValue : Prop :=
  ∀ (y x : Byte) (v : Word32) (i : Instr) (n f : Nat),
    (i, n, f) ∈ [(.fix13 y x v, 1, 3), (.fix21 y x v, 2, 1), (.fix31 y x v, 3, 1), (.fix30 y x v, 3, 0)] →
    fixedContract v f → ∀ s : State, s.busy = false →
      ∃ t, exec i s = .next t ∧ t = { s with fb := t.fb, status := 0x00 } ∧
        let k := 10 ^ (f + 1)
        let scaled := match Config.hw.scaleMode with
          | .exact => f32Magnitude v * k / 2 ^ 149
          | .f32Product => roundF32 (f32Magnitude v * k) 1 / 2 ^ 149
        let rounded := scaled / 10 + if 5 ≤ scaled % 10 then 1 else 0
        charBodies Config.hw (fixedCodes rounded n f) y.toNat x.toNat s.fb = .ok t.fb

/-- The four fixed-decimal opcodes and their fields (30_encoding.md R95, R96, 41_glyph.md R194). -/
def Obligations.FixedDecimalOpcodesDecode : Prop :=
  ∀ (w : OpWord) (payload : List Byte),
    (opField w = 0x09 → decodeFields w payload = .fix13 (aField w) (bField w) (vField w)) ∧
    (opField w = 0x0A → decodeFields w payload = .fix21 (aField w) (bField w) (vField w)) ∧
    (opField w = 0x0B → decodeFields w payload = .fix31 (aField w) (bField w) (vField w)) ∧
    (opField w = 0x0C → decodeFields w payload = .fix30 (aField w) (bField w) (vField w))

/-- 41_glyph.md R190 and R191: a fixed-decimal operation refuses an infinity or a NaN, then a value below zero, then a
product beyond binary32 in F32_PRODUCT mode, and writes no cell; in EXACT mode it runs on every finite value that
is not below zero. Exponent, sign and magnitude, the rounding of the product and the bound 2^277 (2^128 in units of
2^-149) are general knowledge of binary32 (log entry 19). -/
def Obligations.FixedDecimalRefusals : Prop :=
  ∀ (y x : Byte) (v : Word32) (i : Instr) (f : Nat),
    (i, f) ∈ [(.fix13 y x v, 3), (.fix21 y x v, 1), (.fix31 y x v, 1), (.fix30 y x v, 0)] →
    ∀ s : State, s.busy = false →
      (f32Exponent v = 255 → exec i s = .refused .floatNotFinite) ∧
      (f32Exponent v ≠ 255 → f32Sign v = true → f32Magnitude v ≠ 0 → exec i s = .refused .floatNegative) ∧
      (f32Exponent v ≠ 255 → (f32Sign v = false ∨ f32Magnitude v = 0) →
        match Config.hw.scaleMode with
        | .f32Product =>
          2 ^ 277 ≤ roundF32 (f32Magnitude v * 10 ^ (f + 1)) 1 → exec i s = .refused .scaleOverflow
        | .exact => ∃ t, exec i s = .next t)

/-- The source's worked rounding, 41_glyph.md R196, and the inputs of R195 and R197 on which the scale modes differ:
the values N before they are drawn. The reading of the patterns is general knowledge of binary32 (log entry 19). -/
def Obligations.WorkedRoundings : Prop :=
  ∀ g : Nat → Nat → Nat → Byte,
    (∀ mode, fixedValue (Params.reference g mode) 0x4145851F 1 = .ok 123 ∧
      fixedValue (Params.reference g mode) 0x4145999A 1 = .ok 124 ∧
      fixedValue (Params.reference g mode) 0x411FFE5D 3 = .ok 10000 ∧
      fixedValue (Params.reference g mode) 0x401CCCCD 0 = .ok 2) ∧
    fixedValue (Params.reference g .exact) 0x42F6E666 1 = .ok 1234 ∧
    fixedValue (Params.reference g .f32Product) 0x42F6E666 1 = .ok 1235 ∧
    fixedValue (Params.reference g .exact) 0x3F801062 3 = .ok 1000 ∧
    fixedValue (Params.reference g .f32Product) 0x3F801062 3 = .ok 1001

/-! ## The panel controller -/

/-- 42_panel.md R222 and R223: INIT clears FB, queues BusInit if asked for, the 25 literal command bytes with contrast
and precharge verbatim, and the flush of the cleared buffer; BUSY = 1, OPKIND = INIT, STATUS = OK, and nothing
else changes. -/
def Obligations.InitQueuesItsSequence : Prop :=
  (∀ (w : OpWord) (payload : List Byte), opField w = 0x01 → decodeFields w payload =
    .init (decide (aField w ≠ 0)) (decide (bField w ≠ 0)) (cField w) (dField w)) ∧
  ∀ (s : State) (bus inv : Bool) (contrast precharge : Byte), s.busy = false →
    ∃ t, exec (.init bus inv contrast precharge) s = .next t ∧
      t = { s with fb := t.fb, status := 0x00, busy := true, opkind := .init, outq := t.outq } ∧
      (∀ i, Framebuffer.read t.fb i = if i < 1024 then some 0x00 else none) ∧
      t.outq.length = (if bus then 82 else 81) ∧
      t.outq = (if bus then [Txn.busInit] else []) ++
        ([0xAE, 0xC8, 0x00, 0x10, 0x00, 0x81, contrast, 0xA1, (if inv then 0xA7 else 0xA6),
          0xA8, 0x3F, 0xA4, 0xD3, 0x00, 0xD5, 0x50, 0xD9, precharge,
          0xDA, 0x12, 0xDB, 0x20, 0x8D, 0x14, 0xAF].map Txn.cmd) ++ flushTxns Config.hw t.fb

/-- 42_panel.md R224 and R225: FLUSH queues 7 transactions for each page, pages ascending: column range 0 to 0x7F, page
address to the literal 7, and the page's 128 bytes in ascending order; FB is unchanged; BUSY = 1, OPKIND =
FLUSH, STATUS = OK, and nothing else changes. FB in canonical form. -/
def Obligations.FlushQueuesEveryPage : Prop :=
  (∀ (w : OpWord) (payload : List Byte), opField w = 0x0D → decodeFields w payload = .flush) ∧
  ∀ s : State, s.busy = false → Framebuffer.wf Config.hw s.fb →
    ∃ t, exec .flush s = .next t ∧
      t = { s with status := 0x00, busy := true, opkind := .flush, outq := t.outq } ∧
      t.outq.length = 56 ∧
      ∀ page, page < 8 → ∃ bytes : List Byte,
        (t.outq.drop (7 * page)).take 7 =
          [Txn.cmd 0x21, Txn.cmd 0x00, Txn.cmd 0x7F, Txn.cmd 0x22, Txn.cmd (BitVec.ofNat 8 page),
            Txn.cmd 0x07, Txn.data bytes] ∧
        bytes.length = 128 ∧ ∀ k, k < 128 → bytes[k]? = Framebuffer.read s.fb (page * 128 + k)

/-- The byte counts of 42_panel.md R233, read off the tagged byte stream of R232: a flush carries 48 command bytes and
1024 data bytes, an INIT 73 and 1024, and the data bytes of an INIT are all 0x00. FB in canonical form. -/
def Obligations.OutputByteCounts : Prop :=
  ∀ fb : Framebuffer, Framebuffer.wf Config.hw fb →
    ∀ (bus inv : Bool) (contrast precharge : Byte),
      let commands := fun l : List Txn => ((taggedStream l).filterMap fun m =>
        match m with
        | .byte .command b => some b
        | _ => none)
      let data := fun l : List Txn => ((taggedStream l).filterMap fun m =>
        match m with
        | .byte .data b => some b
        | _ => none)
      (commands (flushTxns Config.hw fb)).length = 48 ∧ (data (flushTxns Config.hw fb)).length = 1024 ∧
      (commands (initTxns Config.hw bus inv contrast precharge)).length = 73 ∧
      (data (initTxns Config.hw bus inv contrast precharge)).length = 1024 ∧
      ∀ b ∈ data (initTxns Config.hw bus inv contrast precharge), b = 0x00

/-- A FLUSH whose transactions the transport accepts delivers the whole frame: after the Issue and 56 Accepts, from
any idle state, OUTLOG has grown by the flush list of FB, BUSY is 0 again, and FB and PSTATE are as before
(42_panel.md R225, R226, R230). -/
def Obligations.FlushDeliversTheFrame : Prop :=
  ∀ (s : State) (w : OpWord) (rest : List Request) (ts : List Turn),
    s.busy = false → opField w = 0x0D → s.requests = .issue ⟨w, []⟩ :: rest →
    s.turns = .host :: (List.replicate 56 .transport ++ ts) →
      steps 57 s = .next { s with
        status := 0x00, opkind := .none, outq := []
        outlog := s.outlog ++ flushTxns Config.hw s.fb
        requests := rest, turns := ts }

/-- An INIT whose transactions the transport accepts makes the panel controller READY: after the Issue and 81
Accepts, or 82 with BusInit, OUTLOG has grown by the INIT list, FB is clear, BUSY is 0 and PSTATE is READY
(42_panel.md R223, R226, R230, 10_state.md R39). -/
def Obligations.InitDeliversTheSequence : Prop :=
  ∀ (s : State) (w : OpWord) (rest : List Request) (ts : List Turn) (n : Nat),
    s.busy = false → opField w = 0x01 → s.requests = .issue ⟨w, []⟩ :: rest →
    n = (if aField w = 0x00 then 81 else 82) →
    s.turns = .host :: (List.replicate n .transport ++ ts) →
      steps (n + 1) s = .next { s with
        fb := Framebuffer.zeros Config.hw, status := 0x00, opkind := .none, outq := [], pstate := .ready
        outlog := s.outlog ++
          initTxns Config.hw (decide (aField w ≠ 0)) (decide (bField w ≠ 0)) (cField w) (dField w)
        requests := rest, turns := ts }

/-- The assembler lines of 30_encoding.md R107, but for LOAD, and of R106 give the words the spec works out. How a line is cut into its
parts is the model's choice (log entry 21). -/
def Obligations.AssemblerGivesTheWorkedWords : Prop :=
  assemble Config.hw "INIT 0, 0, 0x7F, 0xF1".toList = .ok ⟨0x000000F17F000001, []⟩ ∧
  assemble Config.hw "CLRRECT 10, 20, 1, 2".toList = .ok ⟨0x0000000201140A03, []⟩ ∧
  assemble Config.hw "CHAR 'A', 0, 0".toList = .ok ⟨0x0000000000004106, []⟩ ∧
  assemble Config.hw "STR \"AB\", 3, 20".toList = .ok ⟨0x0000000014030207, [0x41, 0x42]⟩ ∧
  assemble Config.hw "UINT 2, 1, 1234, 3".toList = .ok ⟨0x000004D203010208, []⟩ ∧
  assemble Config.hw "FIX21 4, 0, 12.35".toList = .ok ⟨0x4145999A0000040A, []⟩ ∧
  assemble Config.hw "PSET 3, 10".toList = .ok ⟨0x000000000A030105, []⟩ ∧
  assemble Config.hw "CLRPAGE 3".toList = .ok ⟨0x00000003037F0003, []⟩ ∧
  assemble Config.hw "PCLR 3, 10".toList = .ok ⟨0x000000000A030005, []⟩ ∧
  assemble Config.hw "SETPX 1, 3, 10".toList = .ok ⟨0x000000000A030105, []⟩ ∧
  assemble Config.hw "CLEAR".toList = .ok ⟨0x0000000000000002, []⟩ ∧
  assemble Config.hw "FLUSH".toList = .ok ⟨0x000000000000000D, []⟩
end

