-- ==== Sys2Proof/Laws/Config.lean ====
section
/-! SUPPORT. The parameters of this hardware: the sizes R9 fixes, and R9's constraints. -/

namespace Sys2Proof

@[simp] theorem Config.hw_width : Config.hw.width = 128 := rfl
@[simp] theorem Config.hw_height : Config.hw.height = 64 := rfl
@[simp] theorem Config.hw_pages : Config.hw.pages = 8 := rfl
@[simp] theorem Config.hw_fbSize : Config.hw.fbSize = 1024 := rfl
@[simp] theorem Config.hw_dividerCode : Config.hw.dividerCode = 0x2E := rfl

/-- The two framing bytes differ (R9), whatever CTRL_CMD and the gap are. -/
theorem Config.hw_ctrl_ne : Config.hw.ctrlCmd ≠ Config.hw.ctrlData := by
  intro h
  have h2 := congrArg BitVec.toNat h
  have hlt := Config.ctrlDataGap.isLt
  have hb := Config.ctrlCmd.isLt
  simp only [Config.hw, BitVec.toNat_add, BitVec.toNat_ofNat] at h2
  omega

/-- R9's constraints hold of this hardware, for every value of its OPEN parameters. -/
theorem Config.hw_valid : Config.hw.Valid where
  width_pos := by decide
  width_le := by decide
  height_mul := by decide
  height_ge := by decide
  height_le := by decide
  first_le := Nat.le_of_lt_succ Config.firstCode.isLt
  last_ge := Nat.le_add_right _ _
  last_le := by
    have := Config.lastCodeAboveNine.isLt
    show 0x39 + Config.lastCodeAboveNine.val ≤ 0xFF
    omega
  divider_ge := Nat.le_of_lt_succ Config.firstCode.isLt
  divider_le := by
    show 0x2E ≤ 0x39 + Config.lastCodeAboveNine.val
    omega
  ctrl_ne := Config.hw_ctrl_ne

/-- A cell is at least one column wide: "derived, >= 1" (R9). -/
theorem Params.cellW_pos (p : Params) : 1 ≤ p.cellW := by
  unfold Params.cellW Params.fontXSize
  cases p.font <;> simp <;> omega

/-- FB_SIZE = PAGES * WIDTH, since HEIGHT is a multiple of 8 (R9). -/
theorem Params.fbSize_eq (p : Params) (h : p.Valid) : p.fbSize = p.pages * p.width := by
  obtain ⟨k, hk⟩ := Nat.dvd_of_mod_eq_zero h.height_mul
  simp only [Params.fbSize, Params.pages, hk]
  rw [Nat.mul_left_comm, Nat.mul_div_cancel_left _ (by decide), Nat.mul_div_cancel_left _ (by decide),
    Nat.mul_comm]

end Sys2Proof
end

