-- ==== Sys2Proof/Laws/Decode.lean ====
section
/-! SUPPORT. The fields of an assembled word, and what decoding can answer (spec/30_encoding.md R91 to R100). -/

namespace Sys2Proof

/-! ## The fields of an assembled word (R91) -/

section
variable (op a b c : Byte) (v : Word32)

/-- Appending is adding above. -/
theorem toNat_append_eq {n m : Nat} (x : BitVec n) (y : BitVec m) :
    (x ++ y).toNat = x.toNat * 2 ^ m + y.toNat := by
  rw [BitVec.toNat_append, ← Nat.shiftLeft_add_eq_or_of_lt y.isLt, Nat.shiftLeft_eq]

/-- The word as a number: the fields at their places (R91). -/
theorem opWord_toNat : (opWord op a b c v).toNat =
    op.toNat + a.toNat * 2 ^ 8 + b.toNat * 2 ^ 16 + c.toNat * 2 ^ 24 + v.toNat * 2 ^ 32 := by
  unfold opWord
  simp only [toNat_append_eq]
  omega

@[simp] theorem opField_opWord : opField (opWord op a b c v) = op := by
  have h1 := op.isLt; have h2 := a.isLt; have h3 := b.isLt; have h4 := c.isLt; have h5 := v.isLt
  apply BitVec.eq_of_toNat_eq
  rw [opField, BitVec.extractLsb'_toNat, opWord_toNat, Nat.shiftRight_eq_div_pow]
  omega

@[simp] theorem aField_opWord : aField (opWord op a b c v) = a := by
  have h1 := op.isLt; have h2 := a.isLt; have h3 := b.isLt; have h4 := c.isLt; have h5 := v.isLt
  apply BitVec.eq_of_toNat_eq
  rw [aField, BitVec.extractLsb'_toNat, opWord_toNat, Nat.shiftRight_eq_div_pow]
  omega

@[simp] theorem bField_opWord : bField (opWord op a b c v) = b := by
  have h1 := op.isLt; have h2 := a.isLt; have h3 := b.isLt; have h4 := c.isLt; have h5 := v.isLt
  apply BitVec.eq_of_toNat_eq
  rw [bField, BitVec.extractLsb'_toNat, opWord_toNat, Nat.shiftRight_eq_div_pow]
  omega

@[simp] theorem cField_opWord : cField (opWord op a b c v) = c := by
  have h1 := op.isLt; have h2 := a.isLt; have h3 := b.isLt; have h4 := c.isLt; have h5 := v.isLt
  apply BitVec.eq_of_toNat_eq
  rw [cField, BitVec.extractLsb'_toNat, opWord_toNat, Nat.shiftRight_eq_div_pow]
  omega

@[simp] theorem vField_opWord : vField (opWord op a b c v) = v := by
  have h1 := op.isLt; have h2 := a.isLt; have h3 := b.isLt; have h4 := c.isLt; have h5 := v.isLt
  apply BitVec.eq_of_toNat_eq
  rw [vField, BitVec.extractLsb'_toNat, opWord_toNat, Nat.shiftRight_eq_div_pow]
  omega

/-- D is the low byte of V (R91, R92). -/
theorem dField_eq (w : OpWord) : dField w = (vField w).extractLsb' 0 8 := by
  unfold dField vField
  apply BitVec.eq_of_toNat_eq
  simp only [BitVec.extractLsb'_toNat, Nat.shiftRight_eq_div_pow]
  omega

@[simp] theorem dField_opWord_dOperand (d : Byte) : dField (opWord op a b c (dOperand d)) = d := by
  rw [dField_eq, vField_opWord]
  have h1 := d.isLt
  apply BitVec.eq_of_toNat_eq
  rw [dOperand, BitVec.extractLsb'_toNat, toNat_append_eq, Nat.shiftRight_eq_div_pow, BitVec.toNat_ofNat]
  omega

end

@[simp] theorem boolField_boolOperand (b : Bool) : boolField (boolOperand b) = b := by
  cases b <;> decide

/-- A boolean operand is false exactly when the field is zero (R94). -/
theorem boolField_eq_false (b : Byte) : boolField b = false ↔ b = 0x00 := by
  simp [boolField]

/-! ## What decoding can answer -/

/-- The host port refuses a descriptor for its payload length and for nothing else (R100). -/
theorem decodeHost_error (d : Descriptor) (e : DecodeError) (h : decodeHost d = .error e) :
    e = .payloadLengthMismatch ∧ d.payload.length ≠ requiredLength d.word := by
  unfold decodeHost at h
  split at h
  · cases h
  · rename_i hne
    cases h
    exact ⟨rfl, hne⟩

/-- With the required payload length the operation is the one of the word's fields (R95). -/
theorem decodeHost_ok (d : Descriptor) (h : d.payload.length = requiredLength d.word) :
    decodeHost d = .ok (decodeFields d.word d.payload) := if_pos h

/-- The operation a descriptor with a given opcode stands for, opcode by opcode (R95, R96). -/
theorem decodeFields_cases (w : OpWord) (payload : List Byte) :
    ((opField w).toNat = 0x01 ∧ decodeFields w payload =
      .init (boolField (aField w)) (boolField (bField w)) (cField w) (dField w)) ∨
    ((opField w).toNat = 0x02 ∧ decodeFields w payload = .clear) ∨
    ((opField w).toNat = 0x03 ∧ decodeFields w payload =
      .clrrect (aField w) (bField w) (cField w) (dField w)) ∨
    ((opField w).toNat = 0x04 ∧ decodeFields w payload = .load (vField w) payload) ∨
    ((opField w).toNat = 0x05 ∧ decodeFields w payload =
      .setpx (boolField (aField w)) (bField w) (cField w)) ∨
    ((opField w).toNat = 0x06 ∧ decodeFields w payload = .char (aField w) (bField w) (cField w)) ∨
    ((opField w).toNat = 0x07 ∧ decodeFields w payload =
      .str (aField w) (bField w) (cField w) payload) ∨
    ((opField w).toNat = 0x08 ∧ decodeFields w payload =
      .uint (aField w) (bField w) (cField w) (vField w)) ∨
    ((opField w).toNat = 0x09 ∧ decodeFields w payload = .fix13 (aField w) (bField w) (vField w)) ∨
    ((opField w).toNat = 0x0A ∧ decodeFields w payload = .fix21 (aField w) (bField w) (vField w)) ∨
    ((opField w).toNat = 0x0B ∧ decodeFields w payload = .fix31 (aField w) (bField w) (vField w)) ∨
    ((opField w).toNat = 0x0C ∧ decodeFields w payload = .fix30 (aField w) (bField w) (vField w)) ∨
    ((opField w).toNat = 0x0D ∧ decodeFields w payload = .flush) ∨
    (isReservedOp (opField w) ∧ decodeFields w payload = .reserved (opField w)) := by
  unfold decodeFields
  split <;> simp_all
  all_goals omega

/-- The eight bytes of a word, put together again, are the word (R68). -/
theorem word_of_bytes (w : OpWord) :
    (w.extractLsb' 56 8 ++ w.extractLsb' 48 8 ++ w.extractLsb' 40 8 ++ w.extractLsb' 32 8 ++
      w.extractLsb' 24 8 ++ w.extractLsb' 16 8 ++ w.extractLsb' 8 8 ++ w.extractLsb' 0 8 : OpWord) = w := by
  apply BitVec.eq_of_toNat_eq
  have := w.isLt
  simp only [toNat_append_eq, BitVec.extractLsb'_toNat, Nat.shiftRight_eq_div_pow]
  omega

/-- No row of the table overlaps another on its port: each command byte and each opcode has one row. -/
theorem opcodeRows_disjoint :
    opcodeRows.Pairwise fun r r' => r.onBus = r'.onBus → r.pattern &&& r'.mask ≠ r'.pattern &&& r.mask := by
  decide

end Sys2Proof
end

