-- ==== Sys2Proof/Laws/Framebuffer.lean ====
section
/-! SUPPORT. The framebuffer: a read after a write, the canonical form, and what each framebuffer operation leaves
in every byte (spec/20_memory.md, spec/40_framebuffer.md). -/

namespace Sys2Proof.Machine

/-! ## Reads of lists of cells -/

/-- A buffer listed from a function over 0..n-1 reads as that function inside, and does not exist outside. -/
theorem read_tabulate (n : Nat) (f : Nat → Byte) (i : Nat) :
    Framebuffer.read ((List.range n).map fun k => (k, f k)) i = if i < n then some (f i) else none := by
  unfold Framebuffer.read
  induction n with
  | zero => simp
  | succ n ih =>
    rw [List.range_succ, List.map_append, List.lookup_append, ih]
    by_cases h : i < n
    · simp [h, Nat.lt_succ_of_lt h]
    · by_cases h2 : i = n
      · subst h2; simp
      · have : (i == n) = false := by simpa using h2
        have h3 : ¬ i < n + 1 := by omega
        simp [h, h3, List.lookup, this]

@[simp] theorem read_zeros (p : Params) (i : Nat) :
    Framebuffer.read (Framebuffer.zeros p) i = if i < p.fbSize then some 0x00 else none :=
  read_tabulate p.fbSize (fun _ => 0x00) i

@[simp] theorem read_resetContents (p : Params) (n i : Nat) :
    Framebuffer.read (Framebuffer.resetContents p n) i =
      if i < p.fbSize then some (p.fbReset n i) else none :=
  read_tabulate p.fbSize (p.fbReset n) i

/-- A read after a write: the byte written where the address exists, and every other byte as before. -/
theorem read_write (fb : Framebuffer) (i j : Nat) (v : Byte) :
    Framebuffer.read (Framebuffer.write fb i v) j =
      if j = i then (Framebuffer.read fb i).map fun _ => v else Framebuffer.read fb j := by
  unfold Framebuffer.read Framebuffer.write
  induction fb with
  | nil => simp
  | cons c fb ih =>
    obtain ⟨k, b⟩ := c
    simp only [List.map_cons]
    by_cases hk : k = i
    · subst hk
      by_cases hj : j = k
      · subst hj; simp [List.lookup]
      · have : (j == k) = false := by simpa using hj
        simp only [if_true, List.lookup, this, if_neg hj]
        rw [ih, if_neg hj]
    · simp only [if_neg hk]
      by_cases hj : j = k
      · subst hj; simp [List.lookup, hk]
      · have h1 : (j == k) = false := by simpa using hj
        have h2 : (i == k) = false := by simpa using (Ne.symm hk)
        simp only [List.lookup, h1, h2, ih]

/-- The same for a guarded store. -/
theorem read_store (p : Params) (fb : Framebuffer) (i j : Nat) (v : Byte) :
    Framebuffer.read (Framebuffer.store p fb i v) j =
      if j = i ∧ i < p.fbSize then (Framebuffer.read fb i).map fun _ => v else Framebuffer.read fb j := by
  unfold Framebuffer.store
  by_cases h : i < p.fbSize <;> simp [h, read_write]

/-! ## Which addresses exist -/

/-- No write makes or removes an address (R61: "never resized"). -/
@[simp] theorem write_keys (fb : Framebuffer) (i : Nat) (v : Byte) :
    (Framebuffer.write fb i v).map Prod.fst = fb.map Prod.fst := by
  unfold Framebuffer.write
  rw [List.map_map]
  apply List.map_congr_left
  intro c _
  by_cases h : c.1 = i <;> simp [h]

@[simp] theorem store_keys (p : Params) (fb : Framebuffer) (i : Nat) (v : Byte) :
    (Framebuffer.store p fb i v).map Prod.fst = fb.map Prod.fst := by
  unfold Framebuffer.store
  split <;> simp

/-- A loop of steps that keep the keys keeps them. -/
theorem foldl_keys {α : Type} (f : Framebuffer → α → Framebuffer)
    (hf : ∀ fb a, (f fb a).map Prod.fst = fb.map Prod.fst) (l : List α) (fb : Framebuffer) :
    (l.foldl f fb).map Prod.fst = fb.map Prod.fst := by
  induction l generalizing fb with
  | nil => rfl
  | cons a l ih => rw [List.foldl_cons, ih, hf]

theorem zeros_wf (p : Params) : Framebuffer.wf p (Framebuffer.zeros p) := by
  simp [Framebuffer.wf, Framebuffer.zeros, List.map_map, Function.comp_def]

theorem resetContents_wf (p : Params) (n : Nat) :
    Framebuffer.wf p (Framebuffer.resetContents p n) := by
  simp [Framebuffer.wf, Framebuffer.resetContents, List.map_map, Function.comp_def]

theorem loadBitmap_wf (p : Params) (bitmap : List Byte) (h : bitmap.length = p.fbSize) :
    Framebuffer.wf p (loadBitmap p bitmap) := by
  unfold Framebuffer.wf loadBitmap
  rw [List.map_fst_zip]
  simp [h]

@[simp] theorem clearColumns_keys (p : Params) (xf xl page : Nat) (fb : Framebuffer) :
    (clearColumns p xf xl page fb).map Prod.fst = fb.map Prod.fst := by
  unfold clearColumns
  apply foldl_keys
  intro fb x
  by_cases h : x < p.width <;> simp [h]

@[simp] theorem clearRect_keys (p : Params) (xf xl pf pl : Nat) (fb : Framebuffer) :
    (clearRect p xf xl pf pl fb).map Prod.fst = fb.map Prod.fst := by
  unfold clearRect
  apply foldl_keys
  intro fb page
  by_cases h : page < p.pages <;> simp [h]

@[simp] theorem setPixel_keys (p : Params) (st : Bool) (x y : Nat) (fb : Framebuffer) :
    (setPixel p st x y fb).map Prod.fst = fb.map Prod.fst := by
  unfold setPixel
  split
  · split <;> simp
  · rfl

/-- In canonical form the addresses that exist are exactly 0..FB_SIZE-1. -/
theorem read_isSome (p : Params) (fb : Framebuffer) (h : Framebuffer.wf p fb) (i : Nat) :
    (Framebuffer.read fb i).isSome = true ↔ i < p.fbSize := by
  rw [← List.mem_range, ← h]
  clear h
  unfold Framebuffer.read
  induction fb with
  | nil => simp
  | cons c fb ih =>
    obtain ⟨k, b⟩ := c
    by_cases hk : i = k
    · subst hk; simp [List.lookup]
    · have : (i == k) = false := by simpa using hk
      simp only [List.lookup, this, ih, List.map_cons, List.mem_cons, hk, false_or]

/-- Two buffers in canonical form that read alike at every address are equal. -/
theorem wf_ext (p : Params) (fb fb' : Framebuffer) (h : Framebuffer.wf p fb) (h' : Framebuffer.wf p fb')
    (hr : ∀ i, Framebuffer.read fb i = Framebuffer.read fb' i) : fb = fb' := by
  have key : ∀ (l l' : Framebuffer), l.map Prod.fst = l'.map Prod.fst → (l.map Prod.fst).Nodup →
      (∀ i, List.lookup i l = List.lookup i l') → l = l' := by
    intro l
    induction l with
    | nil => intro l' hk _ _; cases l' with
      | nil => rfl
      | cons c l' => simp at hk
    | cons c l ih =>
      intro l' hk hn hl
      cases l' with
      | nil => simp at hk
      | cons c' l' =>
        obtain ⟨k, b⟩ := c
        obtain ⟨k', b'⟩ := c'
        simp only [List.map_cons, List.cons.injEq] at hk
        obtain ⟨rfl, hk⟩ := hk
        have hb := hl k
        simp only [List.lookup, beq_self_eq_true, Option.some.injEq] at hb
        subst hb
        simp only [List.map_cons, List.nodup_cons] at hn
        congr 1
        refine ih l' hk hn.2 ?_
        intro i
        by_cases hi : i = k
        · subst hi
          have : ∀ m : Framebuffer, i ∉ m.map Prod.fst → List.lookup i m = none := by
            intro m hm
            rw [List.lookup_eq_none_iff]
            intro q hq
            simp only [bne_iff_ne, ne_eq] at *
            rintro rfl
            exact hm (List.mem_map_of_mem hq)
          rw [this l hn.1, this l' (hk ▸ hn.1)]
        · have := hl i
          have hik : (i == k) = false := by simpa using hi
          simpa only [List.lookup, hik] using this
  exact key fb fb' (h.trans h'.symm) (by rw [h]; exact List.nodup_range) hr

/-- Two buffers with the same addresses read alike once every byte is replaced by one value. -/
theorem map_read_of_keys (fb fb' : Framebuffer) (h : fb.map Prod.fst = fb'.map Prod.fst) (i : Nat) (v : Byte) :
    ((Framebuffer.read fb i).map fun _ => v) = (Framebuffer.read fb' i).map fun _ => v := by
  induction fb generalizing fb' with
  | nil =>
    cases fb' with
    | nil => rfl
    | cons c fb' => simp at h
  | cons c fb ih =>
    cases fb' with
    | nil => simp at h
    | cons c' fb' =>
      obtain ⟨k, b⟩ := c
      obtain ⟨k', b'⟩ := c'
      simp only [List.map_cons, List.cons.injEq] at h
      obtain ⟨rfl, h⟩ := h
      unfold Framebuffer.read
      by_cases hi : i = k
      · subst hi; simp [List.lookup]
      · have hb : (i == k) = false := by simpa using hi
        simp only [List.lookup, hb]
        exact ih fb' h

/-! ## What the operations leave in each byte -/

theorem mem_inclusive (a b i : Nat) : i ∈ inclusive a b ↔ a ≤ i ∧ i ≤ b := by
  unfold inclusive
  rw [List.mem_range'_1]
  omega

/-- Byte `i` has its column in x_first..x_last and its page in page_first..page_last, both inside the buffer
(R135): its column is i mod WIDTH and its page i div WIDTH (R15). -/
abbrev inRectangle (p : Params) (xf xl pf pl i : Nat) : Prop :=
  (xf ≤ i % p.width ∧ i % p.width ≤ xl) ∧ (pf ≤ i / p.width ∧ i / p.width ≤ pl) ∧ i < p.pages * p.width

/-- A page and a column below WIDTH are the quotient and the remainder of their byte index (R15). -/
theorem eq_byteIndex_iff (p : Params) (x page i : Nat) (hx : x < p.width) :
    i = byteIndex p x page ↔ i % p.width = x ∧ i / p.width = page := by
  have hw : 0 < p.width := Nat.lt_of_le_of_lt (Nat.zero_le _) hx
  unfold byteIndex
  constructor
  · rintro rfl
    rw [Nat.mul_comm, Nat.mul_add_mod, Nat.mul_add_div hw, Nat.mod_eq_of_lt hx, Nat.div_eq_of_lt hx]
    simp
  · rintro ⟨h1, h2⟩
    have := Nat.div_add_mod i p.width
    rw [h1, h2, Nat.mul_comm] at this
    exact this.symm

/-- One page of CLRRECT: the bytes of its columns inside the page are 0 (R135). -/
theorem read_clearColumns (p : Params) (xf xl page : Nat) (fb : Framebuffer) (i : Nat)
    (hw : 0 < p.width) :
    Framebuffer.read (clearColumns p xf xl page fb) i =
      if (xf ≤ i % p.width ∧ i % p.width ≤ xl) ∧ i / p.width = page then
        (Framebuffer.read fb i).map fun _ => 0x00
      else Framebuffer.read fb i := by
  have key : ∀ (l : List Nat) (fb : Framebuffer),
      Framebuffer.read (l.foldl (fun fb x =>
        if x < p.width then Framebuffer.write fb (byteIndex p x page) 0x00 else fb) fb) i =
      if i % p.width ∈ l ∧ i / p.width = page then (Framebuffer.read fb i).map fun _ => 0x00
      else Framebuffer.read fb i := by
    intro l
    induction l with
    | nil => simp
    | cons a l ih =>
      intro fb
      rw [List.foldl_cons, ih]
      have hm : i % p.width < p.width := Nat.mod_lt _ hw
      have hread : Framebuffer.read
          (if a < p.width then Framebuffer.write fb (byteIndex p a page) 0x00 else fb) i =
          if i % p.width = a ∧ i / p.width = page then (Framebuffer.read fb i).map fun _ => 0x00
          else Framebuffer.read fb i := by
        by_cases ha : a < p.width
        · rw [if_pos ha, read_write]
          by_cases hi : i = byteIndex p a page
          · rw [if_pos hi, if_pos ((eq_byteIndex_iff p a page i ha).mp hi), hi]
          · rw [if_neg hi, if_neg (fun h => hi ((eq_byteIndex_iff p a page i ha).mpr h))]
        · rw [if_neg ha, if_neg]
          rintro ⟨h, -⟩
          exact ha (h ▸ hm)
      rw [hread]
      by_cases h1 : i % p.width = a <;> by_cases h2 : i / p.width = page <;>
        by_cases h3 : i % p.width ∈ l <;> simp [h1, h2, h3, Function.comp_def]
  unfold clearColumns
  rw [key]
  simp only [mem_inclusive]

/-- CLRRECT: a byte is 0 when its column and page are inside both the rectangle and the buffer, and is
unchanged otherwise (R135, R136). -/
theorem read_clearRect (p : Params) (xf xl pf pl : Nat) (fb : Framebuffer) (i : Nat)
    (hw : 0 < p.width) :
    Framebuffer.read (clearRect p xf xl pf pl fb) i =
      if inRectangle p xf xl pf pl i then (Framebuffer.read fb i).map fun _ => 0x00
      else Framebuffer.read fb i := by
  have key : ∀ (l : List Nat) (fb : Framebuffer),
      Framebuffer.read (l.foldl (fun fb page =>
        if page < p.pages then clearColumns p xf xl page fb else fb) fb) i =
      if (xf ≤ i % p.width ∧ i % p.width ≤ xl) ∧ i / p.width ∈ l ∧ i / p.width < p.pages then
        (Framebuffer.read fb i).map fun _ => 0x00
      else Framebuffer.read fb i := by
    intro l
    induction l with
    | nil => simp
    | cons a l ih =>
      intro fb
      rw [List.foldl_cons, ih]
      have hread : Framebuffer.read (if a < p.pages then clearColumns p xf xl a fb else fb) i =
          if ((xf ≤ i % p.width ∧ i % p.width ≤ xl) ∧ i / p.width = a) ∧ a < p.pages then
            (Framebuffer.read fb i).map fun _ => 0x00
          else Framebuffer.read fb i := by
        by_cases ha : a < p.pages
        · rw [if_pos ha, read_clearColumns _ _ _ _ _ _ hw]; simp [ha]
        · simp [ha]
      rw [hread]
      by_cases h1 : xf ≤ i % p.width ∧ i % p.width ≤ xl
      · by_cases h2 : i / p.width = a
        · by_cases h3 : a < p.pages
          · simp [h1, h2, h3, Function.comp_def]
          · simp [h1, h2, h3]
        · simp [h1, h2]
      · simp [h1]
  unfold clearRect
  rw [key]
  have hp : i / p.width < p.pages ↔ i < p.pages * p.width := Nat.div_lt_iff_lt_mul hw
  simp only [mem_inclusive, hp, and_assoc]

/-- LOAD: byte `i` is byte `i` of the bitmap (R140). -/
theorem read_loadBitmap (p : Params) (bitmap : List Byte) (h : bitmap.length = p.fbSize) (i : Nat) :
    Framebuffer.read (loadBitmap p bitmap) i = bitmap[i]? := by
  have key : ∀ (l : List Byte) (k : Nat), i ≥ k →
      List.lookup i ((List.range' k l.length).zip l) = l[i - k]? := by
    intro l
    induction l with
    | nil => simp
    | cons b l ih =>
      intro k hk
      simp only [List.length_cons, List.range'_succ, List.zip_cons_cons]
      by_cases hi : i = k
      · subst hi; simp [List.lookup]
      · have h1 : (i == k) = false := by simpa using hi
        rw [List.lookup, h1]
        have h2 := ih (k + 1) (by omega)
        rw [show i - k = (i - (k + 1)) + 1 by omega, List.getElem?_cons_succ]
        exact h2
  unfold Framebuffer.read loadBitmap
  rw [← h, List.range_eq_range']
  have := key bitmap 0 (Nat.zero_le _)
  simpa using this

/-- SETPX out of range changes nothing (R150). -/
theorem setPixel_out (p : Params) (st : Bool) (x y : Nat) (fb : Framebuffer)
    (h : ¬ (x < p.width ∧ y < p.height)) : setPixel p st x y fb = fb := if_neg h

/-- SETPX in range: one byte changes, by one bit (R150). -/
theorem read_setPixel (p : Params) (st : Bool) (x y : Nat) (fb : Framebuffer)
    (h : x < p.width ∧ y < p.height) (i : Nat) :
    Framebuffer.read (setPixel p st x y fb) i =
      if i = byteIndex p x (pageOf y) then (Framebuffer.read fb i).map (putBit st (bitIndex y))
      else Framebuffer.read fb i := by
  unfold setPixel
  rw [if_pos h]
  cases hr : Framebuffer.read fb (byteIndex p x (pageOf y)) with
  | none =>
    by_cases hi : i = byteIndex p x (pageOf y)
    · subst hi; simp [hr]
    · simp [hi]
  | some v =>
    simp only [read_write, hr]
    by_cases hi : i = byteIndex p x (pageOf y)
    · subst hi; simp [hr]
    · simp [hi]

/-- The bit that is put reads as `st`, and every other bit as before (R150). -/
theorem getLsbD_putBit (st : Bool) (b k : Nat) (v : Byte) (hb : b < 8) (hk : k < 8) :
    (putBit st b v).getLsbD k = if k = b then st else v.getLsbD k := by
  unfold putBit
  have hone : ∀ m, (1#8).getLsbD m = decide (m = 0) := by
    intro m; simp [BitVec.getLsbD_one]
  cases st <;>
    simp only [Bool.false_eq_true, if_false, if_true, BitVec.getLsbD_or, BitVec.getLsbD_and,
      BitVec.getLsbD_not, BitVec.getLsbD_shiftLeft, hone, hk, decide_true, Bool.true_and]
  all_goals
    by_cases h : k = b
    · subst h; simp
    · by_cases hlt : k < b
      · simp [h, hlt]
      · have : k - b ≠ 0 := by omega
        simp [h, hlt, this]

end Sys2Proof.Machine
end

