-- ==== Sys2Proof/Laws/Glyph.lean ====
section
/-! SUPPORT. Glyph cells: which addresses exist stays as it was, what a cell leaves in each byte (spec/41_glyph.md R172,
R173), and that the digits and the divider always have a glyph (R174). -/

namespace Sys2Proof.Machine

/-! ## The addresses that exist -/

@[simp] theorem drawRow_keys (p : Params) (c y x r : Nat) (fb : Framebuffer) :
    (drawRow p c y x r fb).map Prod.fst = fb.map Prod.fst :=
  foldl_keys _ (fun _ _ => store_keys ..) _ _

@[simp] theorem drawCell_keys (p : Params) (c y x : Nat) (fb : Framebuffer) :
    (drawCell p c y x fb).map Prod.fst = fb.map Prod.fst :=
  foldl_keys _ (fun _ _ => drawRow_keys ..) _ _

@[simp] theorem drawText_keys (p : Params) (text : List Byte) (y x : Nat) (fb : Framebuffer) :
    (drawText p text y x fb).map Prod.fst = fb.map Prod.fst := by
  induction text generalizing x fb with
  | nil => rfl
  | cons c rest ih => rw [drawText, ih, drawCell_keys]

@[simp] theorem drawDigits_keys (p : Params) (y x value n : Nat) (fb : Framebuffer) :
    (drawDigits p y x value n fb).map Prod.fst = fb.map Prod.fst :=
  foldl_keys _ (fun _ _ => drawCell_keys ..) _ _

@[simp] theorem drawFixed_keys (p : Params) (y x n i f : Nat) (fb : Framebuffer) :
    (drawFixed p y x n i f fb).map Prod.fst = fb.map Prod.fst := by
  unfold drawFixed
  split <;> simp

theorem charBody_keys (p : Params) (c y x : Nat) (fb fb' : Framebuffer)
    (h : charBody p c y x fb = .ok fb') : fb'.map Prod.fst = fb.map Prod.fst := by
  unfold charBody at h
  split at h
  · cases h; simp
  · cases h

theorem textBody_keys (p : Params) (text : List Byte) (y x : Nat) (fb fb' : Framebuffer)
    (h : textBody p text y x fb = .ok fb') : fb'.map Prod.fst = fb.map Prod.fst := by
  unfold textBody at h
  split at h
  · cases h; simp
  · cases h

theorem fixBody_keys (p : Params) (y x : Nat) (v : Word32) (i f : Nat) (fb fb' : Framebuffer)
    (h : fixBody p y x v i f fb = .ok fb') : fb'.map Prod.fst = fb.map Prod.fst := by
  unfold fixBody at h
  split at h
  · cases h
  · cases h; simp

/-! ## What a cell leaves in each byte -/

/-- A byte that no column of the row lands on is unchanged. -/
theorem read_drawRow_other (p : Params) (c y x r : Nat) (fb : Framebuffer) (i : Nat)
    (h : ∀ j < p.cellW, glyphOffset p y x r j ≠ i) :
    Framebuffer.read (drawRow p c y x r fb) i = Framebuffer.read fb i := by
  have key : ∀ (l : List Nat) (fb : Framebuffer), (∀ j ∈ l, glyphOffset p y x r j ≠ i) →
      Framebuffer.read (l.foldl (fun fb j =>
        Framebuffer.store p fb (glyphOffset p y x r j) (cellByte p c r j)) fb) i =
      Framebuffer.read fb i := by
    intro l
    induction l with
    | nil => simp
    | cons a l ih =>
      intro fb hl
      rw [List.foldl_cons, ih _ fun j hj => hl j (List.mem_cons_of_mem _ hj), read_store, if_neg]
      rintro ⟨h1, -⟩
      exact hl a List.mem_cons_self h1.symm
  exact key _ fb fun j hj => h j (List.mem_range.mp hj)

/-- The byte at column `j` of the row is the cell byte, where the address exists and lies in the buffer. -/
theorem read_drawRow (p : Params) (c y x r j : Nat) (fb : Framebuffer) (hj : j < p.cellW)
    (hs : glyphOffset p y x r j < p.fbSize) :
    Framebuffer.read (drawRow p c y x r fb) (glyphOffset p y x r j) =
      (Framebuffer.read fb (glyphOffset p y x r j)).map fun _ => cellByte p c r j := by
  have inj : ∀ k, glyphOffset p y x r j = glyphOffset p y x r k ↔ k = j := by
    intro k; unfold glyphOffset; omega
  have key : ∀ (l : List Nat) (fb : Framebuffer),
      Framebuffer.read (l.foldl (fun fb k =>
        Framebuffer.store p fb (glyphOffset p y x r k) (cellByte p c r k)) fb)
        (glyphOffset p y x r j) =
      if j ∈ l then (Framebuffer.read fb (glyphOffset p y x r j)).map fun _ => cellByte p c r j
      else Framebuffer.read fb (glyphOffset p y x r j) := by
    intro l
    induction l with
    | nil => simp
    | cons a l ih =>
      intro fb
      rw [List.foldl_cons, ih, read_store]
      by_cases ha : a = j
      · subst ha
        by_cases hl : a ∈ l <;> simp [hs, hl, Function.comp_def]
      · have hne : ¬ glyphOffset p y x r j = glyphOffset p y x r a := fun h => ha ((inj a).mp h)
        by_cases hl : j ∈ l <;> simp [hne, hl, Ne.symm ha]
  unfold drawRow
  rw [key, if_pos (List.mem_range.mpr hj)]

/-- A byte that no column of the cell lands on is unchanged (R172, R173). -/
theorem read_drawCell_other (p : Params) (c y x : Nat) (fb : Framebuffer) (i : Nat)
    (h : ∀ r < p.fontPages, ∀ j < p.cellW, glyphOffset p y x r j ≠ i) :
    Framebuffer.read (drawCell p c y x fb) i = Framebuffer.read fb i := by
  have key : ∀ (l : List Nat) (fb : Framebuffer),
      (∀ r ∈ l, ∀ j < p.cellW, glyphOffset p y x r j ≠ i) →
      Framebuffer.read (l.foldl (fun fb r => drawRow p c y x r fb) fb) i = Framebuffer.read fb i := by
    intro l
    induction l with
    | nil => simp
    | cons a l ih =>
      intro fb hl
      rw [List.foldl_cons, ih _ fun r hr => hl r (List.mem_cons_of_mem _ hr),
        read_drawRow_other _ _ _ _ _ _ _ (hl a List.mem_cons_self)]
  exact key _ fb fun r hr => h r (List.mem_range.mp hr)

/-- The byte at column `j` of page row `r` is the cell byte, unless a later page row lands on it too; the last
store to an offset wins (R173, D27). -/
theorem read_drawCell (p : Params) (c y x r j : Nat) (fb : Framebuffer) (hr : r < p.fontPages)
    (hj : j < p.cellW) (hs : glyphOffset p y x r j < p.fbSize)
    (hlast : ∀ r' < p.fontPages, r < r' → ∀ j' < p.cellW,
      glyphOffset p y x r' j' ≠ glyphOffset p y x r j) :
    Framebuffer.read (drawCell p c y x fb) (glyphOffset p y x r j) =
      (Framebuffer.read fb (glyphOffset p y x r j)).map fun _ => cellByte p c r j := by
  have key : ∀ n, n ≤ p.fontPages → ∀ fb : Framebuffer,
      Framebuffer.read ((List.range n).foldl (fun fb r => drawRow p c y x r fb) fb)
        (glyphOffset p y x r j) =
      if r < n then (Framebuffer.read fb (glyphOffset p y x r j)).map fun _ => cellByte p c r j
      else Framebuffer.read ((List.range n).foldl (fun fb r => drawRow p c y x r fb) fb)
        (glyphOffset p y x r j) := by
    intro n
    induction n with
    | zero => simp
    | succ n ih =>
      intro hn fb
      rw [List.range_succ, List.foldl_append, List.foldl_cons, List.foldl_nil]
      by_cases h1 : r < n
      · rw [if_pos (Nat.lt_succ_of_lt h1),
          read_drawRow_other _ _ _ _ _ _ _ (hlast n (by omega) h1), ih (by omega), if_pos h1]
      · by_cases h2 : r = n
        · subst h2
          rw [if_pos (Nat.lt_succ_self r), read_drawRow _ _ _ _ _ _ _ hj hs]
          have hk : ∀ (l : List Nat) (fb : Framebuffer), ∀ k,
              (Framebuffer.read (l.foldl (fun fb r => drawRow p c y x r fb) fb) k).map
                (fun _ => cellByte p c r j) =
              (Framebuffer.read fb k).map fun _ => cellByte p c r j := by
            intro l fb k
            have hkeys : (l.foldl (fun fb r => drawRow p c y x r fb) fb).map Prod.fst =
                fb.map Prod.fst := foldl_keys _ (fun _ _ => drawRow_keys ..) _ _
            exact map_read_of_keys _ _ hkeys k _
          exact hk _ _ _
        · rw [if_neg (by omega)]
  have := key p.fontPages (Nat.le_refl _) fb
  rw [if_pos hr] at this
  exact this

/-! ## The digits and the divider -/

theorem digit_lt (value n i : Nat) : digit value n i < 10 := Nat.mod_lt _ (by decide)

/-- "The codes 0x30..0x39 always lie in the font range" (R174). -/
theorem inFont_digit (p : Params) (h : p.Valid) (value n i : Nat) : inFont p (0x30 + digit value n i) := by
  have h1 := digit_lt value n i
  have h2 := h.first_le
  have h3 := h.last_ge
  constructor <;> omega

/-- DIVIDER_CODE has a glyph (R9). -/
theorem inFont_divider (p : Params) (h : p.Valid) : inFont p p.dividerCode := ⟨h.divider_ge, h.divider_le⟩

/-- CHARBODY of a code with a glyph. -/
theorem charBody_inFont (p : Params) (c y x : Nat) (fb : Framebuffer) (h : inFont p c) :
    charBody p c y x fb = .ok (drawCell p c y x fb) := if_pos h

/-- UINTBODY in the spec's own words, each digit through CHARBODY with its font check, is `drawDigits`
(R174, log entry 18). -/
theorem drawDigits_checked (p : Params) (h : p.Valid) (y x value n : Nat) (fb : Framebuffer) :
    (List.range n).foldlM (fun fb i => charBody p (0x30 + digit value n i) y (x + i) fb) fb =
      (.ok (drawDigits p y x value n fb) : Except Refusal Framebuffer) := by
  have key : ∀ (l : List Nat) (fb : Framebuffer),
      l.foldlM (fun fb i => charBody p (0x30 + digit value n i) y (x + i) fb) fb =
      (.ok (l.foldl (fun fb i => drawCell p (0x30 + digit value n i) y (x + i) fb) fb) :
        Except Refusal Framebuffer) := by
    intro l
    induction l with
    | nil => intro fb; rfl
    | cons a l ih =>
      intro fb
      rw [List.foldlM_cons, charBody_inFont p _ _ _ _ (inFont_digit p h value n a)]
      exact ih _
  exact key _ fb

end Sys2Proof.Machine
end

