-- ==== Sys2Proof/Laws/State.lean ====
section
/-! SUPPORT. One lemma per field per named update of the state, true by definition, so that no proof unfolds a
record update. -/

namespace Sys2Proof.Machine

variable (s : State)

/-! ## setFb -/

@[simp] theorem State.setFb_fb (fb : Framebuffer) : (s.setFb fb).fb = fb := rfl
@[simp] theorem State.setFb_pstate (fb : Framebuffer) : (s.setFb fb).pstate = s.pstate := rfl
@[simp] theorem State.setFb_status (fb : Framebuffer) : (s.setFb fb).status = s.status := rfl
@[simp] theorem State.setFb_busy (fb : Framebuffer) : (s.setFb fb).busy = s.busy := rfl
@[simp] theorem State.setFb_opkind (fb : Framebuffer) : (s.setFb fb).opkind = s.opkind := rfl
@[simp] theorem State.setFb_outq (fb : Framebuffer) : (s.setFb fb).outq = s.outq := rfl
@[simp] theorem State.setFb_outlog (fb : Framebuffer) : (s.setFb fb).outlog = s.outlog := rfl
@[simp] theorem State.setFb_requests (fb : Framebuffer) : (s.setFb fb).requests = s.requests := rfl
@[simp] theorem State.setFb_replies (fb : Framebuffer) : (s.setFb fb).replies = s.replies := rfl
@[simp] theorem State.setFb_turns (fb : Framebuffer) : (s.setFb fb).turns = s.turns := rfl
@[simp] theorem State.setFb_resets (fb : Framebuffer) : (s.setFb fb).resets = s.resets := rfl

/-! ## setStatus -/

@[simp] theorem State.setStatus_fb (c : Byte) : (s.setStatus c).fb = s.fb := rfl
@[simp] theorem State.setStatus_pstate (c : Byte) : (s.setStatus c).pstate = s.pstate := rfl
@[simp] theorem State.setStatus_status (c : Byte) : (s.setStatus c).status = c := rfl
@[simp] theorem State.setStatus_busy (c : Byte) : (s.setStatus c).busy = s.busy := rfl
@[simp] theorem State.setStatus_opkind (c : Byte) : (s.setStatus c).opkind = s.opkind := rfl
@[simp] theorem State.setStatus_outq (c : Byte) : (s.setStatus c).outq = s.outq := rfl
@[simp] theorem State.setStatus_outlog (c : Byte) : (s.setStatus c).outlog = s.outlog := rfl
@[simp] theorem State.setStatus_requests (c : Byte) : (s.setStatus c).requests = s.requests := rfl
@[simp] theorem State.setStatus_replies (c : Byte) : (s.setStatus c).replies = s.replies := rfl
@[simp] theorem State.setStatus_turns (c : Byte) : (s.setStatus c).turns = s.turns := rfl
@[simp] theorem State.setStatus_resets (c : Byte) : (s.setStatus c).resets = s.resets := rfl

/-! ## setRequests -/

@[simp] theorem State.setRequests_fb (rs : List Request) : (s.setRequests rs).fb = s.fb := rfl
@[simp] theorem State.setRequests_pstate (rs : List Request) : (s.setRequests rs).pstate = s.pstate := rfl
@[simp] theorem State.setRequests_status (rs : List Request) : (s.setRequests rs).status = s.status := rfl
@[simp] theorem State.setRequests_busy (rs : List Request) : (s.setRequests rs).busy = s.busy := rfl
@[simp] theorem State.setRequests_opkind (rs : List Request) : (s.setRequests rs).opkind = s.opkind := rfl
@[simp] theorem State.setRequests_outq (rs : List Request) : (s.setRequests rs).outq = s.outq := rfl
@[simp] theorem State.setRequests_outlog (rs : List Request) : (s.setRequests rs).outlog = s.outlog := rfl
@[simp] theorem State.setRequests_requests (rs : List Request) : (s.setRequests rs).requests = rs := rfl
@[simp] theorem State.setRequests_replies (rs : List Request) : (s.setRequests rs).replies = s.replies := rfl
@[simp] theorem State.setRequests_turns (rs : List Request) : (s.setRequests rs).turns = s.turns := rfl
@[simp] theorem State.setRequests_resets (rs : List Request) : (s.setRequests rs).resets = s.resets := rfl

/-! ## setTurns -/

@[simp] theorem State.setTurns_fb (ts : List Turn) : (s.setTurns ts).fb = s.fb := rfl
@[simp] theorem State.setTurns_pstate (ts : List Turn) : (s.setTurns ts).pstate = s.pstate := rfl
@[simp] theorem State.setTurns_status (ts : List Turn) : (s.setTurns ts).status = s.status := rfl
@[simp] theorem State.setTurns_busy (ts : List Turn) : (s.setTurns ts).busy = s.busy := rfl
@[simp] theorem State.setTurns_opkind (ts : List Turn) : (s.setTurns ts).opkind = s.opkind := rfl
@[simp] theorem State.setTurns_outq (ts : List Turn) : (s.setTurns ts).outq = s.outq := rfl
@[simp] theorem State.setTurns_outlog (ts : List Turn) : (s.setTurns ts).outlog = s.outlog := rfl
@[simp] theorem State.setTurns_requests (ts : List Turn) : (s.setTurns ts).requests = s.requests := rfl
@[simp] theorem State.setTurns_replies (ts : List Turn) : (s.setTurns ts).replies = s.replies := rfl
@[simp] theorem State.setTurns_turns (ts : List Turn) : (s.setTurns ts).turns = ts := rfl
@[simp] theorem State.setTurns_resets (ts : List Turn) : (s.setTurns ts).resets = s.resets := rfl

/-! ## pushReply -/

@[simp] theorem State.pushReply_fb (r : Reply) : (s.pushReply r).fb = s.fb := rfl
@[simp] theorem State.pushReply_pstate (r : Reply) : (s.pushReply r).pstate = s.pstate := rfl
@[simp] theorem State.pushReply_status (r : Reply) : (s.pushReply r).status = s.status := rfl
@[simp] theorem State.pushReply_busy (r : Reply) : (s.pushReply r).busy = s.busy := rfl
@[simp] theorem State.pushReply_opkind (r : Reply) : (s.pushReply r).opkind = s.opkind := rfl
@[simp] theorem State.pushReply_outq (r : Reply) : (s.pushReply r).outq = s.outq := rfl
@[simp] theorem State.pushReply_outlog (r : Reply) : (s.pushReply r).outlog = s.outlog := rfl
@[simp] theorem State.pushReply_requests (r : Reply) : (s.pushReply r).requests = s.requests := rfl
@[simp] theorem State.pushReply_replies (r : Reply) : (s.pushReply r).replies = s.replies ++ [r] := rfl
@[simp] theorem State.pushReply_turns (r : Reply) : (s.pushReply r).turns = s.turns := rfl
@[simp] theorem State.pushReply_resets (r : Reply) : (s.pushReply r).resets = s.resets := rfl

/-! ## launch -/

@[simp] theorem State.launch_fb (k : OpKind) (q : List Txn) : (s.launch k q).fb = s.fb := rfl
@[simp] theorem State.launch_pstate (k : OpKind) (q : List Txn) : (s.launch k q).pstate = s.pstate := rfl
@[simp] theorem State.launch_status (k : OpKind) (q : List Txn) : (s.launch k q).status = s.status := rfl
@[simp] theorem State.launch_busy (k : OpKind) (q : List Txn) : (s.launch k q).busy = true := rfl
@[simp] theorem State.launch_opkind (k : OpKind) (q : List Txn) : (s.launch k q).opkind = k := rfl
@[simp] theorem State.launch_outq (k : OpKind) (q : List Txn) : (s.launch k q).outq = q := rfl
@[simp] theorem State.launch_outlog (k : OpKind) (q : List Txn) : (s.launch k q).outlog = s.outlog := rfl
@[simp] theorem State.launch_requests (k : OpKind) (q : List Txn) : (s.launch k q).requests = s.requests := rfl
@[simp] theorem State.launch_replies (k : OpKind) (q : List Txn) : (s.launch k q).replies = s.replies := rfl
@[simp] theorem State.launch_turns (k : OpKind) (q : List Txn) : (s.launch k q).turns = s.turns := rfl
@[simp] theorem State.launch_resets (k : OpKind) (q : List Txn) : (s.launch k q).resets = s.resets := rfl

/-! ## moveOut -/

@[simp] theorem State.moveOut_fb (t : Txn) (q : List Txn) : (s.moveOut t q).fb = s.fb := rfl
@[simp] theorem State.moveOut_pstate (t : Txn) (q : List Txn) : (s.moveOut t q).pstate = s.pstate := rfl
@[simp] theorem State.moveOut_status (t : Txn) (q : List Txn) : (s.moveOut t q).status = s.status := rfl
@[simp] theorem State.moveOut_busy (t : Txn) (q : List Txn) : (s.moveOut t q).busy = s.busy := rfl
@[simp] theorem State.moveOut_opkind (t : Txn) (q : List Txn) : (s.moveOut t q).opkind = s.opkind := rfl
@[simp] theorem State.moveOut_outq (t : Txn) (q : List Txn) : (s.moveOut t q).outq = q := rfl
@[simp] theorem State.moveOut_outlog (t : Txn) (q : List Txn) : (s.moveOut t q).outlog = s.outlog ++ [t] := rfl
@[simp] theorem State.moveOut_requests (t : Txn) (q : List Txn) : (s.moveOut t q).requests = s.requests := rfl
@[simp] theorem State.moveOut_replies (t : Txn) (q : List Txn) : (s.moveOut t q).replies = s.replies := rfl
@[simp] theorem State.moveOut_turns (t : Txn) (q : List Txn) : (s.moveOut t q).turns = s.turns := rfl
@[simp] theorem State.moveOut_resets (t : Txn) (q : List Txn) : (s.moveOut t q).resets = s.resets := rfl

/-! ## complete -/

@[simp] theorem State.complete_fb : (s.complete).fb = s.fb := rfl
@[simp] theorem State.complete_pstate : (s.complete).pstate = if s.opkind = .init then .ready else s.pstate := rfl
@[simp] theorem State.complete_status : (s.complete).status = s.status := rfl
@[simp] theorem State.complete_busy : (s.complete).busy = false := rfl
@[simp] theorem State.complete_opkind : (s.complete).opkind = .none := rfl
@[simp] theorem State.complete_outq : (s.complete).outq = s.outq := rfl
@[simp] theorem State.complete_outlog : (s.complete).outlog = s.outlog := rfl
@[simp] theorem State.complete_requests : (s.complete).requests = s.requests := rfl
@[simp] theorem State.complete_replies : (s.complete).replies = s.replies := rfl
@[simp] theorem State.complete_turns : (s.complete).turns = s.turns := rfl
@[simp] theorem State.complete_resets : (s.complete).resets = s.resets := rfl

/-! ## Reset -/

@[simp] theorem resetBlock_fb : (resetBlock s).fb = Framebuffer.resetContents Config.hw (s.resets + 1) := by simp only [resetBlock, State.reset]
@[simp] theorem resetBlock_pstate : (resetBlock s).pstate = .uninit := by simp only [resetBlock, State.reset]
@[simp] theorem resetBlock_status : (resetBlock s).status = 0x00 := by simp only [resetBlock, State.reset]
@[simp] theorem resetBlock_busy : (resetBlock s).busy = false := by simp only [resetBlock, State.reset]
@[simp] theorem resetBlock_opkind : (resetBlock s).opkind = .none := by simp only [resetBlock, State.reset]
@[simp] theorem resetBlock_outq : (resetBlock s).outq = [] := by simp only [resetBlock, State.reset]
@[simp] theorem resetBlock_outlog : (resetBlock s).outlog = [] := by simp only [resetBlock, State.reset]
@[simp] theorem resetBlock_requests : (resetBlock s).requests = s.requests := by simp only [resetBlock, State.reset]
@[simp] theorem resetBlock_replies : (resetBlock s).replies = s.replies := by simp only [resetBlock, State.reset]
@[simp] theorem resetBlock_turns : (resetBlock s).turns = s.turns := by simp only [resetBlock, State.reset]
@[simp] theorem resetBlock_resets : (resetBlock s).resets = s.resets + 1 := by simp only [resetBlock, State.reset]

@[simp] theorem State.reset_fb : State.reset.fb = Framebuffer.resetContents Config.hw 0 := by simp only [State.reset]
@[simp] theorem State.reset_pstate : State.reset.pstate = .uninit := by simp only [State.reset]
@[simp] theorem State.reset_status : State.reset.status = 0x00 := by simp only [State.reset]
@[simp] theorem State.reset_busy : State.reset.busy = false := by simp only [State.reset]
@[simp] theorem State.reset_opkind : State.reset.opkind = .none := by simp only [State.reset]
@[simp] theorem State.reset_outq : State.reset.outq = [] := by simp only [State.reset]
@[simp] theorem State.reset_outlog : State.reset.outlog = [] := by simp only [State.reset]
@[simp] theorem State.reset_requests : State.reset.requests = [] := by simp only [State.reset]
@[simp] theorem State.reset_replies : State.reset.replies = [] := by simp only [State.reset]
@[simp] theorem State.reset_turns : State.reset.turns = [] := by simp only [State.reset]
@[simp] theorem State.reset_resets : State.reset.resets = 0 := by simp only [State.reset]

end Sys2Proof.Machine
end

