-- ==== Sys2Proof/Laws/Ops.lean ====
section
/-! SUPPORT. What each shared operation can do, said once: acceptance, success, errors, Accept and completion. -/

namespace Sys2Proof.Machine

/-! ## Acceptance, success and errors -/

theorem whenIdle_idle (s : State) (op : State → Outcome) (h : s.busy = false) : whenIdle s op = op s := by
  simp [whenIdle, h]

/-- While BUSY = 1 nothing changes (R101). -/
theorem whenIdle_busy (s : State) (op : State → Outcome) (h : s.busy = true) : whenIdle s op = .next s := by
  simp [whenIdle, h]

@[simp] theorem finish_ok (s : State) (fb : Framebuffer) :
    finish s (.ok fb) = .next ((s.setFb fb).setStatus Status.ok) := rfl

@[simp] theorem finish_error (s : State) (r : Refusal) : finish s (.error r) = .refused r := rfl

/-- A memory-only operation that answers a next state has written the buffer it computed and STATUS = OK. -/
theorem finish_next (s s' : State) (r : Except Refusal Framebuffer) (h : finish s r = .next s') :
    ∃ fb, r = .ok fb ∧ s' = (s.setFb fb).setStatus Status.ok := by
  cases r with
  | error e => simp at h
  | ok fb => exact ⟨fb, rfl, by simpa using h.symm⟩

/-! ## Accept -/

/-- Accept is not enabled on an empty queue (R230). -/
theorem accept_nil (s : State) (h : s.outq = []) : accept s = s := by
  unfold accept; rw [h]

/-- Accept of the last transaction completes the operation (R226). -/
theorem accept_last (s : State) (t : Txn) (h : s.outq = [t]) : accept s = (s.moveOut t []).complete := by
  unfold accept; rw [h]; rfl

/-- Accept of a transaction with others behind it only moves it (R230). -/
theorem accept_more (s : State) (t u : Txn) (q : List Txn) (h : s.outq = t :: u :: q) :
    accept s = s.moveOut t (u :: q) := by
  unfold accept; rw [h]; rfl

/-- Everything Accept can do. -/
theorem accept_cases (s : State) :
    (s.outq = [] ∧ accept s = s) ∨
    (∃ t, s.outq = [t] ∧ accept s = (s.moveOut t []).complete) ∨
    (∃ t u q, s.outq = t :: u :: q ∧ accept s = s.moveOut t (u :: q)) := by
  match h : s.outq with
  | [] => exact .inl ⟨rfl, accept_nil s h⟩
  | [t] => exact .inr (.inl ⟨t, rfl, accept_last s t h⟩)
  | t :: u :: q => exact .inr (.inr ⟨t, u, q, rfl, accept_more s t u q h⟩)

/-- What Accept never touches. -/
theorem accept_frame (s : State) :
    (accept s).fb = s.fb ∧ (accept s).status = s.status ∧ (accept s).requests = s.requests ∧
      (accept s).replies = s.replies ∧ (accept s).turns = s.turns ∧ (accept s).resets = s.resets := by
  obtain ⟨_, h⟩ | ⟨t, _, h⟩ | ⟨t, u, q, _, h⟩ := accept_cases s <;> rw [h] <;> simp

/-- The rest of the queue. -/
theorem accept_outq (s : State) : (accept s).outq = s.outq.tail := by
  obtain ⟨h0, h⟩ | ⟨t, h0, h⟩ | ⟨t, u, q, h0, h⟩ := accept_cases s <;> rw [h] <;> simp [h0]

/-- The queue and the log together stay one sequence: nothing is lost, added or reordered (R76, R227). -/
theorem accept_order (s : State) : (accept s).outlog ++ (accept s).outq = s.outlog ++ s.outq := by
  obtain ⟨_, h⟩ | ⟨t, h0, h⟩ | ⟨t, u, q, h0, h⟩ := accept_cases s <;> rw [h] <;> simp [*]

/-- The head of the queue is the command byte: its instruction is Accept. -/
theorem acceptCommand_head (s : State) (b : Byte) (h : s.outq.head? = some (Txn.cmd b)) :
    acceptCommand s b = .next (accept s) := if_pos h

/-- Otherwise nothing changes. -/
theorem acceptCommand_hold (s : State) (b : Byte) (h : s.outq.head? ≠ some (Txn.cmd b)) :
    acceptCommand s b = .next s := if_neg h

/-- A command byte's instruction always answers, with Accept or with the state it was given. -/
theorem acceptCommand_next (s s' : State) (b : Byte) (h : acceptCommand s b = .next s') :
    s' = s ∨ s' = accept s := by
  unfold acceptCommand at h
  split at h
  · exact .inr (by simpa using h.symm)
  · exact .inl (by simpa using h.symm)

end Sys2Proof.Machine
end

