-- ==== Sys2Proof/Laws/Panel.lean ====
section
/-! SUPPORT. The transaction lists of INIT and FLUSH: how long they are, and their parts (spec/42_panel.md R222 to
R224, R233). -/

namespace Sys2Proof.Machine

@[simp] theorem initSeq_length (inv : Bool) (contrast precharge : Byte) :
    (initSeq inv contrast precharge).length = 25 := rfl

@[simp] theorem pageTxns_length (p : Params) (fb : Framebuffer) (page : Nat) :
    (pageTxns p fb page).length = 7 := rfl

/-- 7 transactions per page (R224). -/
@[simp] theorem flushTxns_length (p : Params) (fb : Framebuffer) : (flushTxns p fb).length = 7 * p.pages := by
  unfold flushTxns
  rw [List.length_flatMap]
  simp only [pageTxns_length, List.map_const', List.length_range, List.sum_replicate, smul_eq_mul]
  omega

/-- 25 + 7*PAGES transactions, plus 1 for BusInit (R223). -/
theorem initTxns_length (p : Params) (bus inv : Bool) (contrast precharge : Byte) :
    (initTxns p bus inv contrast precharge).length = (if bus then 1 else 0) + 25 + 7 * p.pages := by
  unfold initTxns
  cases bus <;> (simp; try omega)

/-- This hardware's flush is 56 transactions, so its queue is never empty (R224). -/
theorem flushTxns_ne_nil (fb : Framebuffer) : flushTxns Config.hw fb ≠ [] := by
  intro h
  have := flushTxns_length Config.hw fb
  rw [h] at this
  simp at this

theorem initTxns_ne_nil (bus inv : Bool) (contrast precharge : Byte) :
    initTxns Config.hw bus inv contrast precharge ≠ [] := by
  intro h
  have := initTxns_length Config.hw bus inv contrast precharge
  rw [h] at this
  simp at this

/-- In canonical form a page gives WIDTH data bytes: every address of a page below PAGES exists. -/
theorem pageBytes_length (p : Params) (h : p.Valid) (fb : Framebuffer) (hfb : Framebuffer.wf p fb)
    (page : Nat) (hp : page < p.pages) : (pageBytes p fb page).length = p.width := by
  have hread : ∀ x ∈ List.range p.width, (Framebuffer.read fb (byteIndex p x page)).isSome = true := by
    intro x hx
    rw [read_isSome p fb hfb, Params.fbSize_eq p h]
    unfold byteIndex
    have hx := List.mem_range.mp hx
    have : (page + 1) * p.width ≤ p.pages * p.width := Nat.mul_le_mul_right _ hp
    rw [Nat.succ_mul] at this
    omega
  unfold pageBytes
  have key : ∀ (l : List Nat), (∀ x ∈ l, (Framebuffer.read fb (byteIndex p x page)).isSome = true) →
      (l.filterMap fun x => Framebuffer.read fb (byteIndex p x page)).length = l.length := by
    intro l
    induction l with
    | nil => simp
    | cons a l ih =>
      intro hl
      obtain ⟨b, hb⟩ := Option.isSome_iff_exists.mp (hl a List.mem_cons_self)
      rw [List.filterMap_cons]
      simp only [hb, List.length_cons, ih fun x hx => hl x (List.mem_cons_of_mem _ hx)]
  rw [key _ hread, List.length_range]

end Sys2Proof.Machine
end

