-- ==== Sys2Proof/Laws/PerInstr.lean ====
section
/-! SUPPORT. One lemma per instruction: its encoding stands in its own row of the opcode table, on its own port
(spec/opcode_table.json, match and mask; spec/30_encoding.md R95, R103). -/

namespace Sys2Proof

/-- The row of spec/opcode_table.json an instruction belongs to. A reserved operation's row is its opcode: the
table's row matches OP 0x00, and "the same rule covers every OP in 0x0E..0xFF". -/
def rowOf (i : Instr) : TableRow :=
  match i with
  | .init .. => ⟨false, 0x01, 0xFF⟩
  | .clear => ⟨false, 0x02, 0xFF⟩
  | .clrrect .. => ⟨false, 0x03, 0xFF⟩
  | .load .. => ⟨false, 0x04, 0xFF⟩
  | .setpx .. => ⟨false, 0x05, 0xFF⟩
  | .char .. => ⟨false, 0x06, 0xFF⟩
  | .str .. => ⟨false, 0x07, 0xFF⟩
  | .uint .. => ⟨false, 0x08, 0xFF⟩
  | .fix13 .. => ⟨false, 0x09, 0xFF⟩
  | .fix21 .. => ⟨false, 0x0A, 0xFF⟩
  | .fix31 .. => ⟨false, 0x0B, 0xFF⟩
  | .fix30 .. => ⟨false, 0x0C, 0xFF⟩
  | .flush => ⟨false, 0x0D, 0xFF⟩
  | .reserved op => ⟨false, op.toNat, 0xFF⟩
  | .outDisplayOff => ⟨true, 0xAE, 0xFF⟩
  | .outScanDirection => ⟨true, 0xC8, 0xFF⟩
  | .outAddrGroup00 => ⟨true, 0x00, 0xFF⟩
  | .outAddrGroup10 => ⟨true, 0x10, 0xFF⟩
  | .outContrast => ⟨true, 0x81, 0xFF⟩
  | .outSegmentRemap => ⟨true, 0xA1, 0xFF⟩
  | .outNormalInverse _ => ⟨true, 0xA6, 0xFE⟩
  | .outMultiplex => ⟨true, 0xA8, 0xFF⟩
  | .outEntireDisplayOn => ⟨true, 0xA4, 0xFF⟩
  | .outDisplayOffset => ⟨true, 0xD3, 0xFF⟩
  | .outClockDivider => ⟨true, 0xD5, 0xFF⟩
  | .outPrecharge => ⟨true, 0xD9, 0xFF⟩
  | .outComPins => ⟨true, 0xDA, 0xFF⟩
  | .outVcomh => ⟨true, 0xDB, 0xFF⟩
  | .outChargePump => ⟨true, 0x8D, 0xFF⟩
  | .outDisplayOn => ⟨true, 0xAF, 0xFF⟩
  | .outColumnRange => ⟨true, 0x21, 0xFF⟩
  | .outPageAddress => ⟨true, 0x22, 0xFF⟩

/-- The mask 0x00000000000000FF takes OP alone (R95). -/
theorem word_and_mask (w : OpWord) : w.toNat &&& 0xFF = (opField w).toNat := by
  rw [opField, BitVec.extractLsb'_toNat, Nat.shiftRight_zero]
  exact Nat.and_two_pow_sub_one_eq_mod _ 8

/-- An assembled word stands in the row of its opcode. -/
theorem opWord_matches (op a b c : Byte) (v : Word32) (payload : List Byte) (pattern : Nat)
    (h : op.toNat = pattern) :
    TableRow.matches ⟨false, pattern, 0xFF⟩ (.host ⟨opWord op a b c v, payload⟩) = true := by
  simp [TableRow.matches, word_and_mask, h]

namespace Laws.TableMatch

/-- The encoding of a well-formed instruction matches its row, and the row is one of the table's, but for the
reserved opcodes 0x0E..0xFF, which "no single mask expresses". -/
def Statement (i : Instr) : Prop :=
  WellFormed i → (rowOf i).matches (encode i) = true ∧
    (rowOf i ∈ opcodeRows ∨ ∃ op : Byte, i = .reserved op ∧ 0x0E ≤ op.toNat)

theorem init (bus inv : Bool) (contrast precharge : Byte) : Statement (.init bus inv contrast precharge) :=
  fun _ => ⟨opWord_matches _ _ _ _ _ _ _ rfl, .inl (show (⟨false, 0x01, 0xFF⟩ : TableRow) ∈ opcodeRows by decide)⟩

theorem clear : Statement .clear :=
  fun _ => ⟨opWord_matches _ _ _ _ _ _ _ rfl, .inl (show (⟨false, 0x02, 0xFF⟩ : TableRow) ∈ opcodeRows by decide)⟩

theorem clrrect (xf xl pf pl : Byte) : Statement (.clrrect xf xl pf pl) :=
  fun _ => ⟨opWord_matches _ _ _ _ _ _ _ rfl, .inl (show (⟨false, 0x03, 0xFF⟩ : TableRow) ∈ opcodeRows by decide)⟩

theorem load (size : Word32) (bitmap : List Byte) : Statement (.load size bitmap) :=
  fun _ => ⟨opWord_matches _ _ _ _ _ _ _ rfl, .inl (show (⟨false, 0x04, 0xFF⟩ : TableRow) ∈ opcodeRows by decide)⟩

theorem setpx (state : Bool) (x y : Byte) : Statement (.setpx state x y) :=
  fun _ => ⟨opWord_matches _ _ _ _ _ _ _ rfl, .inl (show (⟨false, 0x05, 0xFF⟩ : TableRow) ∈ opcodeRows by decide)⟩

theorem char (c y x : Byte) : Statement (.char c y x) :=
  fun _ => ⟨opWord_matches _ _ _ _ _ _ _ rfl, .inl (show (⟨false, 0x06, 0xFF⟩ : TableRow) ∈ opcodeRows by decide)⟩

theorem str (n y x : Byte) (text : List Byte) : Statement (.str n y x text) :=
  fun _ => ⟨opWord_matches _ _ _ _ _ _ _ rfl, .inl (show (⟨false, 0x07, 0xFF⟩ : TableRow) ∈ opcodeRows by decide)⟩

theorem uint (y x n : Byte) (v : Word32) : Statement (.uint y x n v) :=
  fun _ => ⟨opWord_matches _ _ _ _ _ _ _ rfl, .inl (show (⟨false, 0x08, 0xFF⟩ : TableRow) ∈ opcodeRows by decide)⟩

theorem fix13 (y x : Byte) (v : Word32) : Statement (.fix13 y x v) :=
  fun _ => ⟨opWord_matches _ _ _ _ _ _ _ rfl, .inl (show (⟨false, 0x09, 0xFF⟩ : TableRow) ∈ opcodeRows by decide)⟩

theorem fix21 (y x : Byte) (v : Word32) : Statement (.fix21 y x v) :=
  fun _ => ⟨opWord_matches _ _ _ _ _ _ _ rfl, .inl (show (⟨false, 0x0A, 0xFF⟩ : TableRow) ∈ opcodeRows by decide)⟩

theorem fix31 (y x : Byte) (v : Word32) : Statement (.fix31 y x v) :=
  fun _ => ⟨opWord_matches _ _ _ _ _ _ _ rfl, .inl (show (⟨false, 0x0B, 0xFF⟩ : TableRow) ∈ opcodeRows by decide)⟩

theorem fix30 (y x : Byte) (v : Word32) : Statement (.fix30 y x v) :=
  fun _ => ⟨opWord_matches _ _ _ _ _ _ _ rfl, .inl (show (⟨false, 0x0C, 0xFF⟩ : TableRow) ∈ opcodeRows by decide)⟩

theorem flush : Statement .flush :=
  fun _ => ⟨opWord_matches _ _ _ _ _ _ _ rfl, .inl (show (⟨false, 0x0D, 0xFF⟩ : TableRow) ∈ opcodeRows by decide)⟩

theorem reserved (op : Byte) : Statement (.reserved op) := by
  intro h
  refine ⟨opWord_matches _ _ _ _ _ _ _ rfl, ?_⟩
  cases h with
  | inl h =>
    left
    show (⟨false, op.toNat, 0xFF⟩ : TableRow) ∈ opcodeRows
    rw [h]
    decide
  | inr h => exact .inr ⟨op, rfl, h⟩

theorem outDisplayOff : Statement .outDisplayOff :=
  fun _ => by decide

theorem outScanDirection : Statement .outScanDirection :=
  fun _ => by decide

theorem outAddrGroup00 : Statement .outAddrGroup00 :=
  fun _ => by decide

theorem outAddrGroup10 : Statement .outAddrGroup10 :=
  fun _ => by decide

theorem outContrast : Statement .outContrast :=
  fun _ => by decide

theorem outSegmentRemap : Statement .outSegmentRemap :=
  fun _ => by decide

theorem outNormalInverse (inverse : Bool) : Statement (.outNormalInverse inverse) :=
  fun _ => by cases inverse <;> decide

theorem outMultiplex : Statement .outMultiplex :=
  fun _ => by decide

theorem outEntireDisplayOn : Statement .outEntireDisplayOn :=
  fun _ => by decide

theorem outDisplayOffset : Statement .outDisplayOffset :=
  fun _ => by decide

theorem outClockDivider : Statement .outClockDivider :=
  fun _ => by decide

theorem outPrecharge : Statement .outPrecharge :=
  fun _ => by decide

theorem outComPins : Statement .outComPins :=
  fun _ => by decide

theorem outVcomh : Statement .outVcomh :=
  fun _ => by decide

theorem outChargePump : Statement .outChargePump :=
  fun _ => by decide

theorem outDisplayOn : Statement .outDisplayOn :=
  fun _ => by decide

theorem outColumnRange : Statement .outColumnRange :=
  fun _ => by decide

theorem outPageAddress : Statement .outPageAddress :=
  fun _ => by decide

end Laws.TableMatch

end Sys2Proof
end

