-- ==== Sys2Proof/Laws/Step.lean ====
section
/-! SUPPORT. What one instruction and one step can do, said once; every invariant follows from these. -/

namespace Sys2Proof.Machine

/-- Everything an instruction that answers a next state can do: nothing (it holds, or its command byte is not at
the head of OUTQ), Accept, a memory-only write of FB and STATUS that keeps which addresses exist as R61 says,
the start of a flush, or the start of an INIT. -/
theorem exec_cases (i : Instr) (s s' : State) (h : exec i s = .next s') :
    s' = s ∨ s' = accept s ∨
    (s.busy = false ∧ ∃ fb c, s' = (s.setFb fb).setStatus c ∧
      (Framebuffer.wf Config.hw s.fb → Framebuffer.wf Config.hw fb) ∧
      (c = Status.ok ∨ c = Status.sizeMismatch ∨ c = Status.illegalOp)) ∨
    (s.busy = false ∧ s' =
      ((s.setFb s.fb).launch .flush (flushTxns Config.hw s.fb)).setStatus Status.ok) ∨
    (s.busy = false ∧ ∃ bus inv contrast precharge, s' =
      ((s.setFb (Framebuffer.zeros Config.hw)).launch .init
        (initTxns Config.hw bus inv contrast precharge)).setStatus Status.ok) := by
  have memory : ∀ r : Except Refusal Framebuffer,
      (∀ fb, r = .ok fb → Framebuffer.wf Config.hw s.fb → Framebuffer.wf Config.hw fb) →
      s.busy = false → finish s r = .next s' →
      ∃ fb c, s' = (s.setFb fb).setStatus c ∧
        (Framebuffer.wf Config.hw s.fb → Framebuffer.wf Config.hw fb) ∧
        (c = Status.ok ∨ c = Status.sizeMismatch ∨ c = Status.illegalOp) := by
    intro r hr _ hf
    obtain ⟨fb, rfl, hs⟩ := finish_next s s' r hf
    exact ⟨fb, _, hs, hr fb rfl, .inl rfl⟩
  have keyed : ∀ fb : Framebuffer, fb.map Prod.fst = s.fb.map Prod.fst →
      Framebuffer.wf Config.hw s.fb → Framebuffer.wf Config.hw fb := fun fb h1 h2 => h1.trans h2
  have status : ∀ c, (c = Status.ok ∨ c = Status.sizeMismatch ∨ c = Status.illegalOp) →
      raise s c = .next s' → ∃ fb c, s' = (s.setFb fb).setStatus c ∧
        (Framebuffer.wf Config.hw s.fb → Framebuffer.wf Config.hw fb) ∧
        (c = Status.ok ∨ c = Status.sizeMismatch ∨ c = Status.illegalOp) := by
    intro c hc hr
    refine ⟨s.fb, c, ?_, id, hc⟩
    unfold raise at hr
    have : s' = s.setStatus c := by simpa using hr.symm
    rw [this]; rfl
  cases hb : s.busy with
  | true =>
    cases i
    case init | clear | clrrect | load | setpx | char | str | uint | fix13 | fix21 | fix31 | fix30 |
        flush | reserved =>
      left
      simp only [exec, execInit, execClear, execClrrect, execLoad, execSetpx, execChar, execStr, execUint,
        execFix13, execFix21, execFix31, execFix30, execFlush, execReserved, whenIdle_busy s _ hb] at h
      simpa using h.symm
    all_goals
      obtain h | h := acceptCommand_next _ _ _ h
      · exact .inl h
      · exact .inr (.inl h)
  | false =>
    cases i
    case init bus inv contrast precharge =>
      simp only [exec, execInit, whenIdle_idle s _ hb, start] at h
      exact .inr (.inr (.inr (.inr ⟨rfl, bus, inv, contrast, precharge, by simpa using h.symm⟩)))
    case flush =>
      simp only [exec, execFlush, whenIdle_idle s _ hb, start] at h
      exact .inr (.inr (.inr (.inl ⟨rfl, by simpa using h.symm⟩)))
    case clear =>
      simp only [exec, execClear, whenIdle_idle s _ hb] at h
      refine .inr (.inr (.inl ⟨rfl, memory _ ?_ hb h⟩))
      intro fb hf _
      exact Except.ok.inj hf ▸ zeros_wf Config.hw
    case clrrect =>
      simp only [exec, execClrrect, whenIdle_idle s _ hb] at h
      refine .inr (.inr (.inl ⟨rfl, memory _ ?_ hb h⟩))
      rintro _ ⟨⟩
      exact keyed _ (by simp)
    case load size bitmap =>
      simp only [exec, execLoad, whenIdle_idle s _ hb] at h
      split at h
      · cases h
      · rename_i hl
        split at h
        · exact .inr (.inr (.inl ⟨rfl, status _ (.inr (.inl rfl)) h⟩))
        · rename_i hsz
          refine .inr (.inr (.inl ⟨rfl, memory _ ?_ hb h⟩))
          intro fb hf _
          exact Except.ok.inj hf ▸ loadBitmap_wf Config.hw bitmap ((not_not.mp hl).trans (not_not.mp hsz))
    case setpx =>
      simp only [exec, execSetpx, whenIdle_idle s _ hb] at h
      refine .inr (.inr (.inl ⟨rfl, memory _ ?_ hb h⟩))
      rintro _ ⟨⟩
      exact keyed _ (by simp)
    case char =>
      simp only [exec, execChar, whenIdle_idle s _ hb] at h
      exact .inr (.inr (.inl ⟨rfl, memory _ (fun fb hf => keyed fb (charBody_keys _ _ _ _ _ _ hf)) hb h⟩))
    case str =>
      simp only [exec, execStr, whenIdle_idle s _ hb] at h
      split at h
      · cases h
      · exact .inr (.inr (.inl ⟨rfl, memory _ (fun fb hf => keyed fb (textBody_keys _ _ _ _ _ _ hf)) hb h⟩))
    case uint =>
      simp only [exec, execUint, whenIdle_idle s _ hb] at h
      refine .inr (.inr (.inl ⟨rfl, memory _ ?_ hb h⟩))
      rintro _ ⟨⟩
      exact keyed _ (by simp)
    case fix13 =>
      simp only [exec, execFix13, whenIdle_idle s _ hb] at h
      exact .inr (.inr (.inl ⟨rfl, memory _ (fun fb hf => keyed fb (fixBody_keys _ _ _ _ _ _ _ _ hf)) hb h⟩))
    case fix21 =>
      simp only [exec, execFix21, whenIdle_idle s _ hb] at h
      exact .inr (.inr (.inl ⟨rfl, memory _ (fun fb hf => keyed fb (fixBody_keys _ _ _ _ _ _ _ _ hf)) hb h⟩))
    case fix31 =>
      simp only [exec, execFix31, whenIdle_idle s _ hb] at h
      exact .inr (.inr (.inl ⟨rfl, memory _ (fun fb hf => keyed fb (fixBody_keys _ _ _ _ _ _ _ _ hf)) hb h⟩))
    case fix30 =>
      simp only [exec, execFix30, whenIdle_idle s _ hb] at h
      exact .inr (.inr (.inl ⟨rfl, memory _ (fun fb hf => keyed fb (fixBody_keys _ _ _ _ _ _ _ _ hf)) hb h⟩))
    case reserved =>
      simp only [exec, execReserved, whenIdle_idle s _ hb] at h
      exact .inr (.inr (.inl ⟨rfl, status _ (.inr (.inr rfl)) h⟩))
    all_goals
      obtain h | h := acceptCommand_next _ _ _ h
      · exact .inl h
      · exact .inr (.inl h)

/-- The instruction a bus byte stands for takes that byte: it is Accept of its CMD transaction (R103, R230). -/
theorem exec_panel (b : Byte) (i : Instr) (s : State) (h : decodePanel b = .ok i) :
    exec i s = acceptCommand s b := by
  unfold decodePanel at h
  split at h
  case h_20 => cases h
  all_goals
    rename_i heq
    cases h
    rw [show b = BitVec.ofNat 8 b.toNat by simp, heq]
    rfl

/-- A transaction that is run as an instruction is CMD of the byte the instruction stands for (R221). -/
theorem command_some (t : Txn) (i : Instr) (h : t.command = some i) :
    ∃ b, t = Txn.cmd b ∧ decodePanel b = .ok i := by
  match t with
  | .busInit => cases h
  | .write .data _ => cases h
  | .write .command [] => cases h
  | .write .command (_ :: _ :: _) => cases h
  | .write .command [b] =>
    refine ⟨b, rfl, ?_⟩
    cases hd : decodePanel b with
    | error e => simp [Txn.command, Txn.commandByte, hd] at h
    | ok j =>
      have : j = i := by simpa [Txn.command, Txn.commandByte, hd] using h
      rw [this]

/-- Whatever the head of OUTQ is, the transport's turn is Accept (R230). -/
theorem transportTurn_eq (s : State) : transportTurn s = .next (accept s) := by
  unfold transportTurn
  split
  · rename_i hq; rw [accept_nil s hq]
  · rename_i t q hq
    split
    · rename_i i hc
      obtain ⟨b, rfl, hd⟩ := command_some t i hc
      rw [exec_panel b i s hd, acceptCommand_head]
      rw [hq]; rfl
    · rfl

/-- Everything a step that answers a next state can do. -/
theorem step_cases (s s' : State) (h : step s = .next s') :
    (s.turns = [] ∧ s' = s) ∨
    (∃ ts, s.turns = .reset :: ts ∧ s' = resetBlock (s.setTurns ts)) ∨
    (∃ ts, s.turns = .transport :: ts ∧ s' = accept (s.setTurns ts)) ∨
    (∃ ts, s.turns = .host :: ts ∧ hostTurn (s.setTurns ts) = .next s') := by
  unfold step at h
  split at h
  · rename_i ht
    exact .inl ⟨ht, by simpa using h.symm⟩
  · rename_i t ts ht
    cases t with
    | host => exact .inr (.inr (.inr ⟨ts, ht, h⟩))
    | transport =>
      refine .inr (.inr (.inl ⟨ts, ht, ?_⟩))
      simp only [takeTurn, transportTurn_eq] at h
      simpa using h.symm
    | reset =>
      refine .inr (.inl ⟨ts, ht, ?_⟩)
      simp only [takeTurn] at h
      simpa using h.symm

/-- Everything the host's turn can do: nothing to ask, an Issue held while BUSY = 1, an Issue performed, a byte
read, STATUSWORD read, or a write to STATUSWORD ignored. -/
theorem hostTurn_cases (s s' : State) (h : hostTurn s = .next s') :
    s' = s ∨
    (∃ d rest i, s.requests = .issue d :: rest ∧ s.busy = false ∧ decodeHost d = .ok i ∧
      exec i (s.setRequests rest) = .next s') ∨
    (∃ rest, s' = s.setRequests rest) ∨
    (∃ rest r, s' = (s.setRequests rest).pushReply r) := by
  unfold hostTurn at h
  split at h
  · exact .inl (by simpa using h.symm)
  · rename_i d rest hr
    split at h
    · exact .inl (by simpa using h.symm)
    · rename_i hb
      unfold issue at h
      split at h
      · rename_i i hi
        exact .inr (.inl ⟨d, rest, i, hr, by simpa using hb, hi, h⟩)
      · cases h
  · rename_i index rest hr
    unfold hostRead at h
    split at h
    · cases h
    · split at h
      · exact .inr (.inr (.inr ⟨rest, _, by simpa using h.symm⟩))
      · cases h
  · rename_i rest hr
    exact .inr (.inr (.inr ⟨rest, _, by simpa using h.symm⟩))
  · rename_i rest hr
    exact .inr (.inr (.inl ⟨rest, by simpa using h.symm⟩))

end Sys2Proof.Machine
end

