-- ==== Sys2Proof/Tests/Slice0.lean ====
section
/-! SUPPORT. Tests of one step each. Expected results are the spec's: the worked encodings of spec/30_encoding.md
R107, the vectors of spec/95_test_vectors.md, and the tables of the rules. Then a witness for the hypotheses of
each statement that has any. -/

namespace Sys2Proof.Tests

open Sys2Proof.Machine

/-! ## WellFormed refuses ill-formed terms -/

theorem test_wf_load_short : ¬ WellFormed (.load 4 [1, 2, 3]) := by decide
theorem test_wf_load_exact : WellFormed (.load 4 [1, 2, 3, 4]) := by decide
theorem test_wf_str_long : ¬ WellFormed (.str 1 0 0 [0x41, 0x42]) := by decide
theorem test_wf_str_empty : WellFormed (.str 0 0 0 []) := by decide
theorem test_wf_reserved_named : ¬ WellFormed (.reserved 0x0D) := by decide
theorem test_wf_reserved_first : ¬ WellFormed (.reserved 0x01) := by decide
theorem test_wf_reserved_bounds : WellFormed (.reserved 0x00) ∧ WellFormed (.reserved 0x0E) := by decide

/-! ## Decoding: words written out from R91, R95, R96 (R107 and the L1, L2 vectors give their values) -/

theorem test_decode_init :
    decode (.host ⟨0x00000022CF010001, []⟩) = .ok (.init false true 0xCF 0x22) := by decide
theorem test_decode_init_bus :
    decode (.host ⟨0x000000F17F000101, []⟩) = .ok (.init true false 0x7F 0xF1) := by decide
theorem test_decode_clear_unused_fields :
    decode (.host ⟨0xFFFFFFFFFFFFFF02, []⟩) = .ok .clear := by decide
theorem test_decode_clrrect :
    decode (.host ⟨0x0000000907FF7803, []⟩) = .ok (.clrrect 120 255 7 9) := by decide
theorem test_decode_load :
    decode (.host ⟨0x0000000400000004, [1, 2, 3, 4]⟩) = .ok (.load 4 [1, 2, 3, 4]) := by decide
theorem test_decode_setpx :
    decode (.host ⟨0x0000000021408005, []⟩) = .ok (.setpx true 64 33) := by decide
theorem test_decode_char : decode (.host ⟨0x0000000015074106, []⟩) = .ok (.char 0x41 7 21) := by decide
theorem test_decode_str :
    decode (.host ⟨0x000000002A000307, [0x41, 0x42, 0x43]⟩) =
      .ok (.str 3 0 42 [0x41, 0x42, 0x43]) := by decide
theorem test_decode_uint :
    decode (.host ⟨0x0000007B03140008, []⟩) = .ok (.uint 0 20 3 123) := by decide
theorem test_decode_fix13 :
    decode (.host ⟨0x3A03126F00000209, []⟩) = .ok (.fix13 2 0 0x3A03126F) := by decide
theorem test_decode_fix21 :
    decode (.host ⟨0x4145999A0000040A, []⟩) = .ok (.fix21 4 0 0x4145999A) := by decide
theorem test_decode_fix31 :
    decode (.host ⟨0x40A000000000010B, []⟩) = .ok (.fix31 1 0 0x40A00000) := by decide
theorem test_decode_fix30 :
    decode (.host ⟨0x40200000000A050C, []⟩) = .ok (.fix30 5 10 0x40200000) := by decide
theorem test_decode_flush : decode (.host ⟨0x000000000000000D, []⟩) = .ok .flush := by decide
theorem test_decode_reserved :
    decode (.host ⟨0x0000000000000000, []⟩) = .ok (.reserved 0x00) ∧
      decode (.host ⟨0x00000000000000FF, []⟩) = .ok (.reserved 0xFF) := by decide
/-- L2-ENC-5 to L2-ENC-8. -/
theorem test_decode_payload_length :
    decode (.host ⟨0x000000000000000E, [0]⟩) = .error .payloadLengthMismatch ∧
      decode (.host ⟨0x0000000000004106, [0]⟩) = .error .payloadLengthMismatch ∧
      decode (.host ⟨0x0000040000000004, List.replicate 1000 0⟩) = .error .payloadLengthMismatch ∧
      decode (.host ⟨0x0000000000000307, [0x41, 0x42]⟩) = .error .payloadLengthMismatch := by
  decide +kernel

theorem test_decode_out_display_off : decode (.panel 0xAE) = .ok .outDisplayOff := by decide
theorem test_decode_out_scan_direction : decode (.panel 0xC8) = .ok .outScanDirection := by decide
theorem test_decode_out_addr_group_00 : decode (.panel 0x00) = .ok .outAddrGroup00 := by decide
theorem test_decode_out_addr_group_10 : decode (.panel 0x10) = .ok .outAddrGroup10 := by decide
theorem test_decode_out_contrast : decode (.panel 0x81) = .ok .outContrast := by decide
theorem test_decode_out_segment_remap : decode (.panel 0xA1) = .ok .outSegmentRemap := by decide
theorem test_decode_out_normal_inverse :
    decode (.panel 0xA6) = .ok (.outNormalInverse false) ∧
      decode (.panel 0xA7) = .ok (.outNormalInverse true) := by decide
theorem test_decode_out_multiplex : decode (.panel 0xA8) = .ok .outMultiplex := by decide
theorem test_decode_out_entire_display_on : decode (.panel 0xA4) = .ok .outEntireDisplayOn := by decide
theorem test_decode_out_display_offset : decode (.panel 0xD3) = .ok .outDisplayOffset := by decide
theorem test_decode_out_clock_divider : decode (.panel 0xD5) = .ok .outClockDivider := by decide
theorem test_decode_out_precharge : decode (.panel 0xD9) = .ok .outPrecharge := by decide
theorem test_decode_out_com_pins : decode (.panel 0xDA) = .ok .outComPins := by decide
theorem test_decode_out_vcomh : decode (.panel 0xDB) = .ok .outVcomh := by decide
theorem test_decode_out_charge_pump : decode (.panel 0x8D) = .ok .outChargePump := by decide
theorem test_decode_out_display_on : decode (.panel 0xAF) = .ok .outDisplayOn := by decide
theorem test_decode_out_column_range : decode (.panel 0x21) = .ok .outColumnRange := by decide
theorem test_decode_out_page_address : decode (.panel 0x22) = .ok .outPageAddress := by decide
/-- The operand bytes 0x3F and 0x7F are no command bytes of the table (R103). -/
theorem test_decode_out_operands :
    decode (.panel 0x3F) = .error .notCommandByte ∧ decode (.panel 0x7F) = .error .notCommandByte := by
  decide

theorem test_table_words :
    decodeTableWord 64 0x04 = some (.load 0 []) ∧ decodeTableWord 8 0x0D = some .flush ∧
      decodeTableWord 8 0xA7 = some (.outNormalInverse true) ∧
      decodeTableWord 8 0x0E = some (.reserved 0x0E) := by decide

/-! ## Helpers: small states and what is read off an outcome -/

/-- An idle state whose framebuffer holds `v` everywhere. -/
def filled (v : Byte) : State :=
  { State.reset with fb := (List.range 1024).map fun i => (i, v) }

/-- A glyph table whose bytes tell code and column apart. -/
def glyphs (c _r j : Nat) : Byte := BitVec.ofNat 8 (c * 5 + j)

/-- A property of the next state; false of any other outcome. -/
def after (o : Outcome) (f : State → Bool) : Bool :=
  match o with
  | .next s => f s
  | .fault _ => false
  | .refused _ => false

/-- The refusal, if the outcome is one. -/
def refusal (o : Outcome) : Option Refusal :=
  match o with
  | .refused r => some r
  | .next _ => none
  | .fault _ => none

/-- The listed bytes of the buffer, where the addresses exist. -/
def bytesAt (fb : Framebuffer) (a n : Nat) : List Byte :=
  (List.range n).filterMap fun k => Framebuffer.read fb (a + k)

/-- The `n` addresses from `lo` on, with these bytes at `a` and `v` everywhere else. -/
def window (v : Byte) (lo n a : Nat) (bs : List Byte) : Framebuffer :=
  (List.range' lo n).map fun i => (i, if a ≤ i then (bs[i - a]?).getD v else v)

/-- The whole buffer with these bytes at `a` and `v` everywhere else. -/
def patched (v : Byte) (a : Nat) (bs : List Byte) : Framebuffer := window v 0 1024 a bs

/-- The cell of a code in the reference font with `glyphs`: 5 columns and a blank (R170). -/
def cell (c : Nat) : List Byte :=
  [glyphs c 0 0, glyphs c 0 1, glyphs c 0 2, glyphs c 0 3, glyphs c 0 4, 0x00]

/-- The reference configuration in EXACT mode (R10). -/
def ref : Params := Params.reference glyphs .exact

/-! ## The operations of the host port -/

/-- L1-3, L2-CLR-1. -/
theorem test_clear :
    after (exec .clear (filled 0xA5)) (fun s => s.fb == patched 0 0 [] && s.status == 0 &&
      s.pstate == .uninit && s.outlog == []) = true := by decide +kernel
/-- L2-RECT-3: columns 128..255 and pages 8 and 9 are skipped. -/
theorem test_clrrect_clip :
    after (exec (.clrrect 120 255 7 9) (filled 0xFF)) (fun s =>
      s.fb == patched 0xFF 1016 [0, 0, 0, 0, 0, 0, 0, 0] && s.status == 0) = true := by decide +kernel
/-- L2-RECT-4: x_first > x_last clears nothing. -/
theorem test_clrrect_empty :
    after (exec (.clrrect 20 10 0 7) (filled 0xFF)) (fun s => s.fb == patched 0xFF 0 []) = true := by
  decide +kernel
/-- L1-5. -/
theorem test_load :
    after (exec (.load 1024 ((List.range 1024).map (BitVec.ofNat 8))) (filled 0)) (fun s =>
      bytesAt s.fb 254 4 == [0xFE, 0xFF, 0x00, 0x01] && s.status == 0) = true := by decide +kernel
/-- L2-LOAD-3. -/
theorem test_load_mismatch :
    after (exec (.load 1025 (List.replicate 1025 0)) (filled 0x5A)) (fun s =>
      s == { filled 0x5A with status := 0x01 }) = true := by decide +kernel
/-- L1-1: 131 = 1*128 + 3, 10 mod 8 = 2. -/
theorem test_setpx_clear_bit :
    after (exec (.setpx false 3 10) (filled 0xFF)) (fun s => s.fb == patched 0xFF 131 [0xFB]) = true := by
  decide +kernel
/-- L2-PIX-9: x = 128 does not wrap. -/
theorem test_setpx_out :
    after (exec (.setpx true 128 0) (filled 0)) (fun s => s.fb == patched 0 0 [] && s.status == 0) = true := by
  decide +kernel
/-- L2-CHAR-2: offsets 1024..1027 are skipped. -/
theorem test_char_clip :
    charBody ref 0x41 7 21 (window 0 1012 12 0 []) =
      .ok (window 0 1012 12 1022 [glyphs 0x41 0 0, glyphs 0x41 0 1]) := by
  decide +kernel
/-- L2-CHAR-6 and L2-CHAR-7. -/
theorem test_char_range :
    charBody ref 0x1F 0 0 [] = .error .fontCodeOutOfRange ∧
      charBody ref 0x7F 0 0 [] = .error .fontCodeOutOfRange := by decide +kernel
/-- R176: a 12x16 glyph on the last page writes row 0 only, columns 0..11. -/
theorem test_char_tall :
    charBody { ref with font := .f12x16, spaceTrail := 0 } 0x41 7 0 (window 0 890 24 0 []) =
      .ok (window 0 890 24 896 ((List.range 12).map (glyphs 0x41 0))) := by decide +kernel
/-- L2-STR-1. -/
theorem test_str :
    textBody ref [0x41, 0x42] 3 20 (window 0xFF 500 20 0 []) =
      .ok (window 0xFF 500 20 504 (cell 0x41 ++ cell 0x42)) := by decide +kernel
/-- L2-STR-4: every character is checked before any is drawn. -/
theorem test_str_refused : textBody ref [0x41, 0x7F] 0 0 (window 0 0 16 0 []) = .error .fontCodeOutOfRange := by
  decide +kernel
/-- L1-6, "234" in cells 1, 2 and 3 of page 2. -/
theorem test_uint :
    drawDigits ref 2 1 1234 3 (window 0xFF 250 40 0 []) =
      window 0xFF 250 40 262 (cell 0x32 ++ cell 0x33 ++ cell 0x34) := by decide +kernel
/-- L2-UINT-5: "000000000042". -/
theorem test_uint_wide :
    drawDigits ref 0 0 42 12 (window 0xFF 0 80 0 []) =
      window 0xFF 0 80 0 ((List.replicate 10 (cell 0x30)).flatten ++ cell 0x34 ++ cell 0x32) := by
  decide +kernel
/-- L2-FIX-1: 9.9996 wraps to "0.000". -/
theorem test_fix13_carry :
    fixBody ref 0 0 0x411FFE5D 1 3 (window 0xFF 0 40 0 []) =
      .ok (window 0xFF 0 40 0 (cell 0x30 ++ cell 0x2E ++ cell 0x30 ++ cell 0x30 ++ cell 0x30)) := by
  decide +kernel
/-- L2-FIX-3: 1.0005 differs between the scale modes. -/
theorem test_fix13_modes :
    fixedValue ref 0x3F801062 3 = .ok 1000 ∧
      fixedValue { ref with scaleMode := .f32Product } 0x3F801062 3 = .ok 1001 := by decide +kernel
/-- L1-7: 12.35 gives "12.4". -/
theorem test_fix21 :
    fixBody ref 4 0 0x4145999A 2 1 (window 0xFF 500 40 0 []) =
      .ok (window 0xFF 500 40 512 (cell 0x31 ++ cell 0x32 ++ cell 0x2E ++ cell 0x34)) := by decide +kernel
/-- L2-FIX-9: 99.95. -/
theorem test_fix31_modes :
    fixedValue ref 0x42C7E666 1 = .ok 999 ∧
      fixedValue { ref with scaleMode := .f32Product } 0x42C7E666 1 = .ok 1000 := by decide +kernel
/-- The byte-level instance of L2-FIX: 2.5 gives "003" in cells 10..12 of page 5. -/
theorem test_fix30 :
    fixBody ref 5 10 0x40200000 3 0 (window 0xFF 690 40 0 []) =
      .ok (window 0xFF 690 40 700 (cell 0x30 ++ cell 0x30 ++ cell 0x33)) := by decide +kernel
/-- L2-FIX-16 in F32_PRODUCT mode, and L2-FIX-17, 19, 20, 21. -/
theorem test_fix_refusals :
    fixedValue { ref with scaleMode := .f32Product } 0x7F7FFFFF 3 = .error .scaleOverflow ∧
      fixedValue ref 0x7F800000 0 = .error .floatNotFinite ∧
      fixedValue ref 0xFF800000 1 = .error .floatNotFinite ∧
      fixedValue ref 0xBF800000 1 = .error .floatNegative ∧
      fixedValue ref 0x80000001 3 = .error .floatNegative := by decide +kernel
/-- L2-FIX-15: -0.0 is 0. -/
theorem test_fix_negative_zero : fixedValue ref 0x80000000 0 = .ok 0 := by decide +kernel
/-- R99. -/
theorem test_reserved :
    after (exec (.reserved 0xFF) (filled 0x12)) (fun s => s == { filled 0x12 with status := 0x02 }) = true := by
  decide +kernel
/-- L2-INIT-2: 82 transactions, BusInit first; L1-9 instance A. -/
theorem test_init :
    after (exec (.init true false 0x7F 0xF1) (filled 0x5A)) (fun s =>
      s.fb == patched 0 0 [] && s.busy && s.opkind == .init && s.outq.length == 82 &&
        s.outq.take 26 == Txn.busInit :: [0xAE, 0xC8, 0x00, 0x10, 0x00, 0x81, 0x7F, 0xA1, 0xA6, 0xA8, 0x3F,
          0xA4, 0xD3, 0x00, 0xD5, 0x50, 0xD9, 0xF1, 0xDA, 0x12, 0xDB, 0x20, 0x8D, 0x14, 0xAF].map Txn.cmd &&
        statusWord s == 0x100) = true := by decide +kernel
/-- L2-FLUSH-2, page 0, and the commands of page 7. -/
theorem test_flush :
    after (exec .flush { filled 0 with fb := patched 0 0 [0x01] }) (fun s =>
      s.outq.length == 56 && s.outq.take 7 == [Txn.cmd 0x21, Txn.cmd 0x00, Txn.cmd 0x7F, Txn.cmd 0x22,
        Txn.cmd 0x00, Txn.cmd 0x07, Txn.data (0x01 :: List.replicate 127 0)] &&
      (s.outq.drop 49).take 6 == [0x21, 0x00, 0x7F, 0x22, 0x07, 0x07].map Txn.cmd) = true := by decide +kernel

/-! ## The command bytes, the ports, reset -/

/-- Every command byte of the table, at the head of OUTQ and fetched by the transport's turn (R230). -/
theorem test_out_rows :
    panelCommands.all (fun p =>
      after (step (State.withFetchWord (filled 0) 8 p.2.toNat)) (fun s =>
        p.2 == 0x00 || (s.outlog == [Txn.cmd p.2] && !s.busy && s.opkind == .none))) = true := by
  decide +kernel
/-- OUT_ADDR_GROUP_00, whose byte the table shares with the reserved opcode 0x00 (log entry 9). -/
theorem test_out_addr_group_00 :
    after (exec .outAddrGroup00 { filled 0 with outq := [Txn.cmd 0x00, Txn.cmd 0x10], busy := true })
      (fun s => s.outlog == [Txn.cmd 0x00] && s.outq == [Txn.cmd 0x10] && s.busy) = true := by decide +kernel
/-- L2-STAT-5: the last Accept of an INIT. -/
theorem test_accept_init_completes :
    after (step { filled 0 with outq := [Txn.data []], busy := true, opkind := .init, turns := [.transport] })
      (fun s => statusWord s == 0x200) = true := by decide +kernel
/-- A fetched word runs at the next step: `SETPX 1, 3, 10` of R107. -/
theorem test_fetch_word :
    after (step (State.withFetchWord (filled 0) 64 0x000000000A030105)) (fun s =>
      s.fb == patched 0 131 [0x04] && s.requests == [] && s.turns == []) = true := by decide +kernel
/-- L2-HOST-1 and L2-HOST-2. -/
theorem test_host_read :
    after (hostRead 131 [] { filled 0 with fb := patched 0 131 [0x04] })
        (fun s => s.replies == [.byte 0x04]) = true ∧
      refusal (hostRead 1024 [] (filled 0)) = some .hostReadUndefined := by decide +kernel
/-- L2-HOST-3 and L2-HOST-4. -/
theorem test_host_read_busy :
    refusal (hostRead 0 [] { filled 0 with busy := true }) = some .hostReadUndefined ∧
      after (hostTurn { filled 0 with busy := true, requests := [.readStatus] })
        (fun s => s.replies == [.statusWord 0x100]) = true := by decide +kernel
/-- R290. -/
theorem test_reset :
    State.reset.fb.length = 1024 ∧ statusWord State.reset = 0 ∧ State.reset.outq = [] ∧
      State.reset.outlog = [] := by decide +kernel
/-- R106: `PSET x, y`, `PCLR x, y`, `CLRPAGE p`. -/
theorem test_pseudo :
    encode (.pset 3 10) = .host ⟨0x000000000A030105, []⟩ ∧
      encode (.pclr 3 10) = .host ⟨0x000000000A030005, []⟩ ∧
      encode (.clrpage 128 3) = .host ⟨0x00000003037F0003, []⟩ := by decide
/-- R105: an operand that does not fit its field; the words of P4 and of L2-ENC-9. -/
theorem test_assemble :
    assemble ref "SETPX 1, 256, 0".toList = .error .doesNotFit ∧
      assemble ref "FIX13 2, 0, 0.0005".toList = .ok ⟨0x3A03126F00000209, []⟩ ∧
      assemble ref "UINT 2, 1, 1234, 3 -- a comment".toList = .ok ⟨0x000004D203010208, []⟩ := by
  decide +kernel

/-! ## Witnesses: the hypotheses of the statements can be met together -/

/-- `s` with the host's turn and this request next. -/
def askingFrom (s : State) (r : Request) : State := { s with requests := [r], turns := [.host] }

/-- Reset, with the host's turn and this request next. -/
def asking (r : Request) : State := askingFrom State.reset r

/-- `s` with the last transaction of a flush still queued, and the transport's turn next. -/
def flushingFrom (s : State) : State :=
  { s with
    outq := [Txn.data (pageBytes Config.hw s.fb 7)], busy := true, opkind := .flush, turns := [.transport] }

/-- Reset, but for a flush in flight whose last transaction is still queued. -/
def flushing : State := flushingFrom State.reset

/-- The request at hand is the host's next operation, held while the flush is in flight. -/
def holding (d : Descriptor) : State := { flushing with requests := [.issue d], turns := [.host, .host] }

/-- CLEAR on the host port. -/
def clearOp : Descriptor := ⟨0x0000000000000002, []⟩

theorem reset_wf : Framebuffer.wf Config.hw State.reset.fb := by
  rw [State.reset_fb]; exact resetContents_wf Config.hw 0

theorem reset_inv : Inv State.reset := by
  refine ⟨reset_wf, .inl ?_, ?_, ?_, ?_⟩
  · simp [Status.ok]
  · simp
  · simp
  · simp [inFlight]

/-- What the host asks, and whose turn it is, are no part of the invariant. -/
theorem askingFrom_inv (s : State) (r : Request) (h : Inv s) : Inv (askingFrom s r) :=
  ⟨h.fb_wf, h.status_code, h.busy_outq, h.busy_opkind, h.in_flight⟩

/-- The data of the last page is the last transaction of a flush (R224). -/
theorem last_page_suffix (fb : Framebuffer) : [Txn.data (pageBytes Config.hw fb 7)] <:+ flushTxns Config.hw fb := by
  have h : flushTxns Config.hw fb =
      (List.range 7).flatMap (pageTxns Config.hw fb) ++ pageTxns Config.hw fb 7 := by
    unfold flushTxns
    rw [Config.hw_pages, List.range_succ, List.flatMap_append, List.flatMap_singleton]
  rw [h]
  exact ⟨(List.range 7).flatMap (pageTxns Config.hw fb) ++ [Txn.cmd 0x21, Txn.cmd 0x00,
    Txn.cmd (BitVec.ofNat 8 (Config.hw.width - 1)), Txn.cmd 0x22, Txn.cmd (BitVec.ofNat 8 7), Txn.cmd 0x07],
    List.append_assoc ..⟩

/-- A flush with one transaction left keeps the invariant. -/
theorem flushingFrom_inv (s : State) (h : Inv s) : Inv (flushingFrom s) :=
  ⟨h.fb_wf, h.status_code, by simp [flushingFrom], by simp [flushingFrom], last_page_suffix s.fb⟩

theorem asking_inv (r : Request) : Inv (asking r) := askingFrom_inv State.reset r reset_inv

theorem flushing_inv : Inv flushing := flushingFrom_inv State.reset reset_inv

/-- The code of '0' lies in every font (R9). -/
theorem zero_inFont : Config.hw.firstCode ≤ (0x30 : Byte).toNat ∧ (0x30 : Byte).toNat ≤ Config.hw.lastCode := by
  have h1 := Config.hw_valid.first_le
  have h2 := Config.hw_valid.last_ge
  simp; omega

theorem witness_DecodeOfEncodeIsTheInstruction :
    WellFormed (.load 2 [1, 2]) ∧ WellFormed (.str 1 0 255 [0xFF]) ∧ WellFormed (.reserved 0xFF) := by decide

/-- A CLEAR with every unused field set, a STR of the longest text with its unused V set, and an encoded STR. -/
theorem witness_ByteCarrierRoundTrip :
    ([] : List Byte).length = requiredLength 0xFFFFFFFFFFFFFF02 ∧
      (List.replicate 255 (0x41 : Byte)).length = requiredLength 0xFFFFFFFF1403FF07 ∧
      WellFormed (.str 2 3 20 [0x41, 0x42]) ∧
      encode (.str 2 3 20 [0x41, 0x42]) = .host ⟨0x0000000014030207, [0x41, 0x42]⟩ :=
  ⟨by decide, by decide +kernel, by decide, by decide⟩

theorem witness_UnusedFieldsAreIgnored :
    (0xFFFFFFFFFFFFFF02 : OpWord) &&& usedMask (opField 0xFFFFFFFFFFFFFF02) =
      (0x0000000000000002 : OpWord) &&& usedMask (opField 0xFFFFFFFFFFFFFF02) := by decide

/-- A payload where none is due. -/
theorem witness_PayloadLengthMismatchIsRefused :
    ∃ (s : State) (d : Descriptor) (rest : List Request) (ts : List Turn), s.turns = .host :: ts ∧
      s.requests = .issue d :: rest ∧ s.busy = false ∧ d.payload.length ≠ requiredLength d.word :=
  ⟨asking (.issue ⟨0x000000000000000E, [0]⟩), ⟨0x000000000000000E, [0]⟩, [], [], rfl, rfl, rfl, by decide⟩

/-- One byte short, and one byte long. -/
theorem witness_IllFormedTermsAreRefused :
    (filled 0).busy = false ∧ ([0, 0, 0] : List Byte).length ≠ (4 : Word32).toNat ∧
      ([0, 0] : List Byte).length ≠ (1 : Byte).toNat := ⟨rfl, by decide, by decide⟩

theorem witness_StepRunsTheDecodedInstruction :
    (∃ (s : State) (d : Descriptor) (rest : List Request) (ts : List Turn) (i : Instr),
      s.turns = .host :: ts ∧ s.requests = .issue d :: rest ∧ s.busy = false ∧ decode (.host d) = .ok i) ∧
    (∃ (s : State) (b : Byte) (q : List Txn) (ts : List Turn) (i : Instr),
      s.turns = .transport :: ts ∧ s.outq = Txn.cmd b :: q ∧ decode (.panel b) = .ok i) :=
  ⟨⟨asking (.issue clearOp), clearOp, [], [], .clear, rfl, rfl, rfl, by decide⟩,
   ⟨{ flushing with outq := [Txn.cmd 0x21] }, 0x21, [], [], .outColumnRange, rfl, rfl, by decide⟩⟩

theorem witness_IssueIsHeldWhileBusy :
    ∃ (s : State) (d : Descriptor) (rest : List Request) (ts : List Turn),
      s.turns = .host :: ts ∧ s.requests = .issue d :: rest ∧ s.busy = true :=
  ⟨holding clearOp, clearOp, [], [.host], rfl, rfl, rfl⟩

/-- Nothing queued, one transaction, and two. -/
theorem witness_AcceptMovesTheHeadAndCompletes :
    (∃ (s : State) (ts : List Turn), s.turns = .transport :: ts ∧ s.outq = []) ∧
    (∃ (s : State) (ts : List Turn) (t : Txn), s.turns = .transport :: ts ∧ s.outq = [t]) ∧
    (∃ (s : State) (ts : List Turn) (t u : Txn) (q : List Txn),
      s.turns = .transport :: ts ∧ s.outq = t :: u :: q) :=
  ⟨⟨{ State.reset with turns := [.transport] }, [], rfl, rfl⟩, ⟨flushing, [], _, rfl, rfl⟩,
   ⟨{ flushing with outq := [Txn.cmd 0x21, Txn.cmd 0x00] }, [], _, _, [], rfl, rfl⟩⟩

/-- The byte at the head with and without others behind it, and another byte at the head. -/
theorem witness_CommandBytesAreAccepted :
    (.outChargePump, 0x8D) ∈ panelCommands ∧
      { flushing with outq := [Txn.cmd 0x8D] }.outq = Txn.cmd 0x8D :: [] ∧
      { flushing with outq := [Txn.cmd 0x8D, Txn.cmd 0x14] }.outq = Txn.cmd 0x8D :: [Txn.cmd 0x14] ∧
      { flushing with outq := [Txn.cmd 0x14] }.outq.head? ≠ some (Txn.cmd 0x8D) := by
  refine ⟨by decide, rfl, rfl, by decide⟩

/-- The last acceptance of an INIT, and a reset of a READY panel controller. -/
theorem witness_PstateIsOneWay :
    (∃ s s' : State, step s = .next s' ∧ s.pstate = .uninit ∧ s'.pstate = .ready) ∧
    (∃ s s' : State, step s = .next s' ∧ s.pstate = .ready ∧ s'.pstate = .uninit) ∧
    (∃ (s : State) (ts : List Turn) (t : Txn),
      s.turns = .transport :: ts ∧ s.opkind = .init ∧ s.outq = [t]) :=
  ⟨⟨{ State.reset with outq := [Txn.cmd 0x3F], busy := true, opkind := .init, turns := [.transport] },
      _, rfl, rfl, rfl⟩,
   ⟨{ State.reset with pstate := .ready, turns := [.reset] }, _, rfl, rfl, rfl⟩,
   ⟨{ State.reset with outq := [Txn.cmd 0x3F], busy := true, opkind := .init, turns := [.transport] },
      [], Txn.cmd 0x3F, rfl, rfl, rfl⟩⟩

/-- The last acceptance, and a reset during a flush. -/
theorem witness_BusyFallsOnlyByTheLastAcceptance :
    (∃ s' : State, step flushing = .next s' ∧ flushing.busy = true ∧ s'.busy = false) ∧
    (∃ s' : State, step { flushing with turns := [.reset] } = .next s' ∧ s'.busy = false) :=
  ⟨⟨_, rfl, rfl, rfl⟩, ⟨_, rfl, rfl⟩⟩

theorem witness_StalledTransportHangs :
    (holding clearOp).busy = true ∧ (holding clearOp).requests = .issue clearOp :: [] ∧
      ∀ u ∈ (holding clearOp).turns, u = .host := ⟨rfl, rfl, by decide⟩

theorem witness_StatusChangesOnlyOnAcceptedOperations :
    (∃ s' : State, step (asking (.issue ⟨0x000000000000000E, []⟩)) = .next s' ∧
      s'.status ≠ (asking (.issue ⟨0x000000000000000E, []⟩)).status) ∧
    (∃ s' : State, step { State.reset with status := 0x02, turns := [.reset] } = .next s' ∧
      s'.status ≠ { State.reset with status := 0x02, turns := [.reset] }.status) :=
  ⟨⟨_, rfl, by decide⟩, ⟨_, rfl, by decide⟩⟩

/-- A reserved opcode at each end of its ranges, a LOAD of a wrong size, and another operation. -/
theorem witness_EveryAcceptedOperationWritesStatus :
    (filled 0).busy = false ∧
      isReservedOp (opField 0x00) ∧ isReservedOp (opField 0x0E) ∧ isReservedOp (opField 0xFF) ∧
      (∃ t, exec (decodeFields 0x0E []) (filled 0) = .next t) ∧
      requiredLength 0x0000000100000004 = 1 ∧
      (∃ t, exec (decodeFields 0x0000000100000004 [0]) (filled 0) = .next t) ∧
      (∃ t, exec (decodeFields 0x0D []) (filled 0) = .next t) :=
  ⟨rfl, by decide, by decide, by decide, ⟨_, rfl⟩, by decide, ⟨_, rfl⟩, ⟨_, rfl⟩⟩

theorem witness_FramebufferIsStillWhileBusy :
    ∃ s' : State, step flushing = .next s' ∧ flushing.busy = true := ⟨_, rfl, rfl⟩

theorem witness_OutputGrowsAtItsEndOnly : Inv flushing ∧ ∃ s' : State, step flushing = .next s' :=
  ⟨flushing_inv, _, rfl⟩

theorem witness_QueuedTransactionsAreCommandsOrPages : Inv flushing ∧ ∃ t, t ∈ flushing.outq :=
  ⟨flushing_inv, _, List.mem_singleton.mpr rfl⟩

theorem witness_BlockNeverReadsOutlog :
    ∃ s' : State, step flushing = .next s' ∧ (∃ new, s'.outlog = flushing.outlog ++ new) ∧
      ∀ ts, flushing.turns ≠ .reset :: ts := ⟨_, rfl, ⟨_, rfl⟩, by simp [flushing, flushingFrom]⟩

theorem witness_EveryStepKeepsTheInvariant :
    (Inv flushing ∧ ∃ s' : State, step flushing = .next s') ∧
    (Inv (asking (.issue clearOp)) ∧ ∃ s' : State, step (asking (.issue clearOp)) = .next s') :=
  ⟨⟨flushing_inv, _, rfl⟩, ⟨asking_inv _, _, rfl⟩⟩

/-- Both sides occur: an index just inside the buffer and one just outside. -/
theorem witness_OnlyContractViolationsAreRefused :
    Inv (asking (.readByte 1024)) ∧ step (asking (.readByte 1024)) = .refused .hostReadUndefined ∧
      ¬ requestContract (asking (.readByte 1024)) (.readByte 1024) ∧
      Inv (asking (.readByte 1023)) ∧ requestContract (asking (.readByte 1023)) (.readByte 1023) :=
  ⟨asking_inv _, rfl, by simp [requestContract], asking_inv _, rfl, by simp⟩

theorem witness_ResetTurnRestoresTheBlock :
    { flushing with turns := [.reset, .host] }.turns = .reset :: [.host] := rfl

/-- The last index, the first one outside, and a read while BUSY = 1. -/
theorem witness_HostReadReturnsTheByte :
    (∃ (s : State) (rest : List Request) (ts : List Turn), Framebuffer.wf Config.hw s.fb ∧
      s.turns = .host :: ts ∧ s.requests = .readByte 1023 :: rest ∧ s.busy = false) ∧
    (∃ (s : State) (rest : List Request) (ts : List Turn), Framebuffer.wf Config.hw s.fb ∧
      s.turns = .host :: ts ∧ s.requests = .readByte 1024 :: rest ∧ s.busy = false) ∧
    (∃ (s : State) (rest : List Request) (ts : List Turn), Framebuffer.wf Config.hw s.fb ∧
      s.turns = .host :: ts ∧ s.requests = .readByte 0 :: rest ∧ s.busy = true) :=
  ⟨⟨asking (.readByte 1023), [], [], (asking_inv _).fb_wf, rfl, rfl, rfl⟩,
   ⟨asking (.readByte 1024), [], [], (asking_inv _).fb_wf, rfl, rfl, rfl⟩,
   ⟨askingFrom flushing (.readByte 0), [], [], (askingFrom_inv _ _ flushing_inv).fb_wf, rfl, rfl, rfl⟩⟩

theorem witness_StatuswordIsReadAnyTimeAndNeverWritten :
    (∃ (s : State) (rest : List Request) (ts : List Turn),
      s.turns = .host :: ts ∧ s.requests = .readStatus :: rest ∧ s.busy = true) ∧
    (∃ (s : State) (v : Word32) (rest : List Request) (ts : List Turn),
      s.turns = .host :: ts ∧ s.requests = .writeStatus v :: rest) :=
  ⟨⟨{ flushing with requests := [.readStatus], turns := [.host] }, [], [], rfl, rfl, rfl⟩,
   ⟨asking (.writeStatus 0xFFFFFFFF), _, [], [], rfl, rfl⟩⟩

theorem witness_ClearZeroesEveryByte : opField 0xFFFFFFFFFFFFFF02 = 0x02 ∧ (filled 0xA5).busy = false := by
  exact ⟨by decide, rfl⟩

theorem witness_ClrrectZeroesExactlyTheRectangle :
    opField 0x0000000201140A03 = 0x03 ∧ (filled 0xFF).busy = false ∧
      Framebuffer.wf Config.hw State.reset.fb := ⟨by decide, rfl, reset_wf⟩

/-- One byte too few for the buffer, and the exact size. -/
theorem witness_LoadReplacesOrReportsMismatch :
    opField 0x0000040000000004 = 0x04 ∧ (filled 0).busy = false ∧
      (List.replicate 1023 (0 : Byte)).length = (1023 : Word32).toNat ∧ (1023 : Word32).toNat ≠ 1024 ∧
      (List.replicate 1024 (0 : Byte)).length = (1024 : Word32).toNat ∧ (1024 : Word32).toNat = 1024 :=
  ⟨by decide, rfl, List.length_replicate, by decide, List.length_replicate, rfl⟩

/-- The last column and row, and the first outside each. -/
theorem witness_SetpxWritesOneBit :
    opField 0x000000003F7F0105 = 0x05 ∧ (filled 0).busy = false ∧
      ((127 : Byte).toNat < 128 ∧ (63 : Byte).toNat < 64) ∧
      ¬ ((128 : Byte).toNat < 128 ∧ (0 : Byte).toNat < 64) ∧
      ¬ ((0 : Byte).toNat < 128 ∧ (64 : Byte).toNat < 64) := ⟨by decide, rfl, by decide, by decide, by decide⟩

theorem witness_SetpxPixelLaws :
    State.reset.busy = false ∧ Framebuffer.wf Config.hw State.reset.fb ∧ (127 : Byte).toNat < 128 ∧
      (63 : Byte).toNat < 64 ∧ (126 ≠ (127 : Byte).toNat ∨ 63 ≠ (63 : Byte).toNat) ∧
      (128 ≤ (128 : Byte).toNat ∨ 64 ≤ (0 : Byte).toNat) :=
  ⟨rfl, reset_wf, by decide, by decide, by decide, by decide⟩

theorem witness_PixelsAndBitsAreOneToOne :
    127 < 128 ∧ 63 < 64 ∧ 63 / 8 * 128 + 127 = 1023 ∧ 63 % 8 = 7 ∧ 1023 < 1024 ∧ 7 < 8 := by decide

theorem witness_ReservedOpcodesOnlyReportIllegalOp :
    (opField 0x00 = 0x00 ∨ 0x0E ≤ (opField 0x00).toNat) ∧ (opField 0x0E = 0x00 ∨ 0x0E ≤ (opField 0x0E).toNat) ∧
      (opField 0xFF = 0x00 ∨ 0x0E ≤ (opField 0xFF).toNat) ∧ (filled 0).busy = false :=
  ⟨by decide, by decide, by decide, rfl⟩

theorem witness_MemoryOnlyOperationsTouchNoDevice :
    isMemoryOnly (.setpx true 0 0) = true ∧ ∃ t, exec (.setpx true 0 0) State.reset = .next t :=
  ⟨rfl, _, rfl⟩

theorem witness_CharDrawsItsCell :
    opField 0x0000000000003006 = 0x06 ∧ State.reset.busy = false ∧
      Config.hw.firstCode ≤ (0x30 : Byte).toNat ∧ (0x30 : Byte).toNat ≤ Config.hw.lastCode :=
  ⟨by decide, rfl, zero_inFont.1, zero_inFont.2⟩

/-- The reference configuration of R10 keeps R9's constraints. -/
theorem ref_valid : ref.Valid :=
  ⟨by decide, by decide, by decide, by decide, by decide, by decide, by decide, by decide, by decide, by decide,
    Config.hw_ctrl_ne⟩

/-- 'A' at page 7, cell 21: its second column is the last byte of the buffer, its third lies outside; byte 0 is no
byte of the cell. -/
theorem witness_CharbodyStoresItsCell :
    ref.Valid ∧ Framebuffer.wf ref (Framebuffer.zeros ref) ∧ ref.firstCode ≤ 0x41 ∧ 0x41 ≤ ref.lastCode ∧
      (0 < ref.fontPages ∧ 1 < ref.cellW ∧ 1023 = (7 + 0) * ref.width + 21 * ref.cellW + 1 ∧ 1023 < ref.fbSize ∧
        ∀ r' j', 0 < r' → r' < ref.fontPages → j' < ref.cellW →
          (7 + r') * ref.width + 21 * ref.cellW + j' ≠ 1023) ∧
      (∀ r j, r < ref.fontPages → j < ref.cellW → (7 + r) * ref.width + 21 * ref.cellW + j ≠ 0) := by
  have hw : ref.width = 128 := rfl
  have hc : ref.cellW = 6 := rfl
  have hf : ref.fontPages = 1 := rfl
  refine ⟨ref_valid, zeros_wf ref, by decide, by decide, ⟨by decide, by decide, by decide, by decide, ?_⟩, ?_⟩
  · intro r' j' h1 h2; omega
  · intro r j _ _; rw [hw, hc]; omega

theorem witness_GlyphColumnsWrapToTheNextPage :
    Framebuffer.wf (Params.reference glyphs .exact) (Framebuffer.zeros ref) := zeros_wf ref

/-- A text of one character, and the empty text. -/
theorem witness_StrDrawsItsCharacters :
    opField 0x0000000000000107 = 0x07 ∧ State.reset.busy = false ∧
      ([0x30] : List Byte).length = (1 : Byte).toNat ∧
      (∀ c ∈ ([0x30] : List Byte), Config.hw.firstCode ≤ c.toNat ∧ c.toNat ≤ Config.hw.lastCode) ∧
      ([] : List Byte).length = (0 : Byte).toNat := by
  refine ⟨by decide, rfl, rfl, ?_, rfl⟩
  intro c hc
  rw [List.mem_singleton.mp hc]
  exact zero_inFont

/-- The last position that fits: cell 255. -/
theorem witness_StrEqualsSequentialChars :
    State.reset.busy = false ∧ ([0x30, 0x30] : List Byte) ≠ [] ∧
      ([0x30, 0x30] : List Byte).length = (2 : Byte).toNat ∧
      (254 : Byte).toNat + (([0x30, 0x30] : List Byte).length - 1) ≤ 255 ∧
      ∀ c ∈ ([0x30, 0x30] : List Byte), Config.hw.firstCode ≤ c.toNat ∧ c.toNat ≤ Config.hw.lastCode := by
  refine ⟨rfl, by decide, rfl, by decide, ?_⟩
  intro c hc
  have : c = 0x30 := by simpa using hc
  rw [this]
  exact zero_inFont

theorem witness_UintDrawsItsDigits : opField 0x000004D203010208 = 0x08 ∧ State.reset.busy = false :=
  ⟨by decide, rfl⟩

theorem witness_UintShowsTheValueModulo :
    (1234 : Word32).toNat % 10 ^ (3 : Byte).toNat = (234 : Word32).toNat % 10 ^ (3 : Byte).toNat := by decide

/-- 12.35 keeps the contract in either scale mode, as FIX21 reads it. -/
theorem witness_FixedDecimalsDrawTheRoundedValue :
    (.fix21 4 0 0x4145999A, 2, 1) ∈ [(Instr.fix13 4 0 0x4145999A, 1, 3), (.fix21 4 0 0x4145999A, 2, 1),
      (.fix31 4 0 0x4145999A, 3, 1), (.fix30 4 0 0x4145999A, 3, 0)] ∧
    fixedContract 0x4145999A 1 ∧ State.reset.busy = false :=
  ⟨by decide, ⟨by decide, by decide, fun _ => by decide +kernel⟩, rfl⟩

theorem witness_FixedDecimalOpcodesDecode :
    opField 0x3A03126F00000209 = 0x09 ∧ opField 0x4145999A0000040A = 0x0A ∧
      opField 0x40A000000000010B = 0x0B ∧ opField 0x40200000000A050C = 0x0C := by decide

/-- An infinity, the smallest negative subnormal, the largest finite value scaled by 10^4, and minus zero, which is
not below zero. -/
theorem witness_FixedDecimalRefusals :
    f32Exponent 0x7F800000 = 255 ∧
      (f32Exponent 0x80000001 ≠ 255 ∧ f32Sign 0x80000001 = true ∧ f32Magnitude 0x80000001 ≠ 0) ∧
      (f32Exponent 0x7F7FFFFF ≠ 255 ∧ (f32Sign 0x7F7FFFFF = false ∨ f32Magnitude 0x7F7FFFFF = 0) ∧
        2 ^ 277 ≤ roundF32 (f32Magnitude 0x7F7FFFFF * 10 ^ (3 + 1)) 1) ∧
      (f32Exponent 0x80000000 ≠ 255 ∧ (f32Sign 0x80000000 = false ∨ f32Magnitude 0x80000000 = 0)) ∧
      State.reset.busy = false := by
  refine ⟨by decide +kernel, by decide +kernel, by decide +kernel, by decide +kernel, rfl⟩

theorem witness_InitQueuesItsSequence : opField 0x000000F17F000101 = 0x01 ∧ State.reset.busy = false :=
  ⟨by decide, rfl⟩

theorem witness_FlushQueuesEveryPage :
    opField 0x0D = 0x0D ∧ State.reset.busy = false ∧ Framebuffer.wf Config.hw State.reset.fb ∧ 7 < 8 :=
  ⟨by decide, rfl, reset_wf, by decide⟩

theorem witness_OutputByteCounts : Framebuffer.wf Config.hw State.reset.fb := reset_wf

/-- The host's turn with this operation, and `n` turns of the transport after it. -/
def driven (w : OpWord) (n : Nat) : State :=
  { State.reset with requests := [.issue ⟨w, []⟩], turns := .host :: (List.replicate n .transport ++ []) }

theorem witness_FlushDeliversTheFrame :
    (driven 0x0D 56).busy = false ∧ opField 0x0D = 0x0D ∧ (driven 0x0D 56).requests = .issue ⟨0x0D, []⟩ :: [] ∧
      (driven 0x0D 56).turns = .host :: (List.replicate 56 .transport ++ []) := ⟨rfl, by decide, rfl, rfl⟩

/-- With BusInit 82 transactions, without it 81. -/
theorem witness_InitDeliversTheSequence :
    ((driven 0x000000F17F000101 82).busy = false ∧ opField 0x000000F17F000101 = 0x01 ∧
      (driven 0x000000F17F000101 82).requests = .issue ⟨0x000000F17F000101, []⟩ :: [] ∧
      82 = (if aField 0x000000F17F000101 = 0x00 then 81 else 82) ∧
      (driven 0x000000F17F000101 82).turns = .host :: (List.replicate 82 .transport ++ [])) ∧
    ((driven 0x000000F17F000001 81).busy = false ∧ opField 0x000000F17F000001 = 0x01 ∧
      (driven 0x000000F17F000001 81).requests = .issue ⟨0x000000F17F000001, []⟩ :: [] ∧
      81 = (if aField 0x000000F17F000001 = 0x00 then 81 else 82) ∧
      (driven 0x000000F17F000001 81).turns = .host :: (List.replicate 81 .transport ++ [])) :=
  ⟨⟨rfl, by decide, rfl, by decide, rfl⟩, ⟨rfl, by decide, rfl, by decide, rfl⟩⟩

end Sys2Proof.Tests
end

section
/-! Glyph cells in a canonical framebuffer, and the two clipping vectors L2-CHAR-2 and L2-CHAR-4 (41_glyph.md R172). -/

namespace Sys2Proof.Proofs

open Sys2Proof Sys2Proof.Machine

/-! ## What a cell leaves in a canonical framebuffer -/

theorem drawCell_wf (p : Params) (c y x : Nat) (fb : Framebuffer) (hwf : Framebuffer.wf p fb) :
    Framebuffer.wf p (drawCell p c y x fb) := (drawCell_keys p c y x fb).trans hwf

theorem read_eq_none (p : Params) (fb : Framebuffer) (hwf : Framebuffer.wf p fb) (i : Nat) (hi : p.fbSize ≤ i) :
    Framebuffer.read fb i = none :=
  Option.not_isSome_iff_eq_none.mp fun h => Nat.not_lt.mpr hi ((read_isSome p fb hwf i).mp h)

/-- Every offset in the buffer exists, so the last page row that lands on one leaves its cell byte there. -/
theorem read_drawCell_some (p : Params) (c y x r j : Nat) (fb : Framebuffer) (hwf : Framebuffer.wf p fb)
    (hr : r < p.fontPages) (hj : j < p.cellW) (hs : glyphOffset p y x r j < p.fbSize)
    (hlast : ∀ r' < p.fontPages, r < r' → ∀ j' < p.cellW, glyphOffset p y x r' j' ≠ glyphOffset p y x r j) :
    Framebuffer.read (drawCell p c y x fb) (glyphOffset p y x r j) = some (cellByte p c r j) := by
  obtain ⟨b, hb⟩ := Option.isSome_iff_exists.mp ((read_isSome p fb hwf _).mpr hs)
  rw [read_drawCell p c y x r j fb hr hj hs hlast, hb, Option.map_some]

/-- Only an offset inside the buffer is stored to (R172): an index is unchanged when every column that lands on it
lies past the end. -/
theorem read_drawCell_unchanged (p : Params) (c y x : Nat) (fb : Framebuffer) (hwf : Framebuffer.wf p fb) (i : Nat)
    (h : i < p.fbSize → ∀ r < p.fontPages, ∀ j < p.cellW, glyphOffset p y x r j ≠ i) :
    Framebuffer.read (drawCell p c y x fb) i = Framebuffer.read fb i := by
  by_cases hi : i < p.fbSize
  · exact read_drawCell_other p c y x fb i (h hi)
  · rw [read_eq_none p _ (drawCell_wf p c y x fb hwf) i (Nat.not_lt.mp hi),
      read_eq_none p fb hwf i (Nat.not_lt.mp hi)]

/-! ## The reference configuration (R10): one page row of five glyph columns and a spacing column -/

section
variable (g : Nat → Nat → Nat → Byte) (mode : ScaleMode)

@[simp] theorem reference_fbSize : (Params.reference g mode).fbSize = 1024 := by
  simp [Params.fbSize, Params.reference]
@[simp] theorem reference_cellW : (Params.reference g mode).cellW = 6 := rfl
@[simp] theorem reference_fontPages : (Params.reference g mode).fontPages = 1 := rfl

theorem reference_glyphOffset (y x r j : Nat) :
    glyphOffset (Params.reference g mode) y x r j = (y + r) * 128 + x * 6 + j := rfl

theorem reference_cellByte_glyph (c r j : Nat) (hj : j < 5) :
    cellByte (Params.reference g mode) c r j = g c r j := if_pos ⟨Nat.zero_le j, hj⟩

theorem reference_cellByte_spacing (c r : Nat) : cellByte (Params.reference g mode) c r 5 = 0x00 := rfl

theorem reference_charBody (c y x : Nat) (fb : Framebuffer) (hlo : 0x20 ≤ c) (hhi : c ≤ 0x7E) :
    charBody (Params.reference g mode) c y x fb = .ok (drawCell (Params.reference g mode) c y x fb) :=
  charBody_inFont _ c y x fb ⟨hlo, hhi⟩

variable (fb : Framebuffer) (hwf : Framebuffer.wf (Params.reference g mode) fb)
include hwf

theorem reference_read_drawCell (c y x j i : Nat) (hj : j < 6) (hi : y * 128 + x * 6 + j = i) (hs : i < 1024) :
    Framebuffer.read (drawCell (Params.reference g mode) c y x fb) i =
      some (cellByte (Params.reference g mode) c 0 j) := by
  have hoff : glyphOffset (Params.reference g mode) y x 0 j = i := by simpa [reference_glyphOffset] using hi
  have honly : ∀ r' < (Params.reference g mode).fontPages, 0 < r' → ∀ j' < (Params.reference g mode).cellW,
      glyphOffset (Params.reference g mode) y x r' j' ≠ glyphOffset (Params.reference g mode) y x 0 j := by
    intro r' hr' hpos
    rw [reference_fontPages] at hr'
    omega
  rw [← hoff]
  exact read_drawCell_some _ c y x 0 j fb hwf (by simp) (by simpa using hj) (by simpa [hoff] using hs) honly

theorem reference_read_drawCell_unchanged (c y x i : Nat)
    (h : i < 1024 → ∀ j < 6, y * 128 + x * 6 + j ≠ i) :
    Framebuffer.read (drawCell (Params.reference g mode) c y x fb) i = Framebuffer.read fb i := by
  refine read_drawCell_unchanged _ c y x fb hwf i fun hi r hr j hj => ?_
  obtain rfl : r = 0 := by simpa using hr
  simpa [reference_glyphOffset] using h (by simpa using hi) j (by simpa using hj)

end

/-- Settles O37. The cell at page 0, cell 21 starts at byte 126 and runs over the page's end at 128; the cell at page 7,
cell 21 starts at byte 1022, and its columns from 2 on lie past the end of the buffer. -/
theorem glyphColumnsWrapToTheNextPage : Obligations.GlyphColumnsWrapToTheNextPage := by
  intro g mode fb hwf
  refine ⟨_, reference_charBody g mode 0x41 0 21 fb (by decide) (by decide), fun j hj => ?_, ?_, fun i hi => ?_,
    _, reference_charBody g mode 0x41 7 21 fb (by decide) (by decide), ?_, ?_, fun i hi => ?_⟩
  · rw [reference_read_drawCell g mode fb hwf 0x41 0 21 j _ (by omega) rfl (by omega),
      reference_cellByte_glyph g mode 0x41 0 j hj]
  · rw [reference_read_drawCell g mode fb hwf 0x41 0 21 5 131 (by decide) rfl (by decide),
      reference_cellByte_spacing]
  · exact reference_read_drawCell_unchanged g mode fb hwf 0x41 0 21 i (by omega)
  · rw [reference_read_drawCell g mode fb hwf 0x41 7 21 0 1022 (by decide) rfl (by decide),
      reference_cellByte_glyph g mode 0x41 0 0 (by decide)]
  · rw [reference_read_drawCell g mode fb hwf 0x41 7 21 1 1023 (by decide) rfl (by decide),
      reference_cellByte_glyph g mode 0x41 0 1 (by decide)]
  · exact reference_read_drawCell_unchanged g mode fb hwf 0x41 7 21 i (by omega)

end Sys2Proof.Proofs
end

section
/-! The turns as equations, and what the operations of the host port can do: the rules the statements of 10_state.md
follow from. -/

namespace Sys2Proof.Proofs

open Sys2Proof Sys2Proof.Machine

/-! ## A step is the turn of the agent that comes next (R30) -/

section
variable (s : State) (ts : List Turn)

theorem step_no_turn (h : s.turns = []) : step s = .next s := by
  unfold step; rw [h]

theorem step_host (h : s.turns = .host :: ts) : step s = hostTurn (s.setTurns ts) := by
  unfold step; rw [h]; rfl

theorem step_transport (h : s.turns = .transport :: ts) : step s = .next (accept (s.setTurns ts)) := by
  unfold step; rw [h]; exact transportTurn_eq _

theorem step_reset (h : s.turns = .reset :: ts) : step s = .next (resetBlock (s.setTurns ts)) := by
  unfold step; rw [h]; rfl

end

/-! ## The host's turn, request by request (R101, R65, R66, R37) -/

section
variable (s : State) (rest : List Request)

theorem hostTurn_no_request (h : s.requests = []) : hostTurn s = .next s := by
  unfold hostTurn; rw [h]

theorem hostTurn_issue_idle (d : Descriptor) (h : s.requests = .issue d :: rest) (hb : s.busy = false) :
    hostTurn s = issue d rest s := by
  unfold hostTurn; rw [h]; simp [hb]

theorem hostTurn_issue_busy (d : Descriptor) (h : s.requests = .issue d :: rest) (hb : s.busy = true) :
    hostTurn s = .next s := by
  unfold hostTurn; rw [h]; simp [hb]

theorem hostTurn_readByte (index : Nat) (h : s.requests = .readByte index :: rest) :
    hostTurn s = hostRead index rest s := by
  unfold hostTurn; rw [h]

theorem hostTurn_readStatus (h : s.requests = .readStatus :: rest) :
    hostTurn s = .next ((s.setRequests rest).pushReply (.statusWord (statusWord s))) := by
  unfold hostTurn; rw [h]

theorem hostTurn_writeStatus (v : Word32) (h : s.requests = .writeStatus v :: rest) :
    hostTurn s = .next (s.setRequests rest) := by
  unfold hostTurn; rw [h]

end

/-- The operation a descriptor decodes to is the one of its word's fields (R95). -/
theorem eq_decodeFields_of_decodeHost (d : Descriptor) (i : Instr) (h : decodeHost d = .ok i) :
    i = decodeFields d.word d.payload := by
  unfold decodeHost at h
  split at h
  · exact (Except.ok.inj h).symm
  · cases h

theorem issue_ok (d : Descriptor) (i : Instr) (rest : List Request) (s : State) (h : decodeHost d = .ok i) :
    issue d rest s = exec i (s.setRequests rest) := by
  unfold issue; rw [h]

theorem issue_error (d : Descriptor) (e : DecodeError) (rest : List Request) (s : State)
    (h : decodeHost d = .error e) : issue d rest s = .refused .payloadLengthMismatch := by
  unfold issue; rw [h]

/-! ## The operations of the host port

On acceptance an operation reads nothing of the state but FB, and it is one of four: a memory-only write, an error
raised, a multi-transaction operation started, a refusal (R101, R260, R263). -/

/-- While BUSY = 0, `op` is one of these four in every state. -/
inductive IsPortOp (op : State → Outcome) : Prop
  | finish (body : Framebuffer → Except Refusal Framebuffer)
      (h : ∀ s, s.busy = false → op s = finish s (body s.fb))
  | raise (code : Byte) (h : ∀ s, s.busy = false → op s = raise s code)
  | start (kind : OpKind) (left : Framebuffer → Framebuffer) (queue : Framebuffer → List Txn)
      (h : ∀ s, s.busy = false → op s = start s kind (left s.fb) (queue s.fb))
  | refused (r : Refusal) (h : ∀ s, s.busy = false → op s = .refused r)

theorem finish_isPortOp (body : Framebuffer → Except Refusal Framebuffer) :
    IsPortOp fun s => whenIdle s fun s => finish s (body s.fb) :=
  .finish body fun s hb => whenIdle_idle s _ hb

theorem raise_isPortOp (code : Byte) : IsPortOp fun s => whenIdle s fun s => raise s code :=
  .raise code fun s hb => whenIdle_idle s _ hb

theorem start_isPortOp (kind : OpKind) (left : Framebuffer → Framebuffer) (queue : Framebuffer → List Txn) :
    IsPortOp fun s => whenIdle s fun s => start s kind (left s.fb) (queue s.fb) :=
  .start kind left queue fun s hb => whenIdle_idle s _ hb

/-- LOAD is refused, or reports SIZE_MISMATCH, or draws, by its operands alone (R100, R140). -/
theorem load_isPortOp (size : Word32) (bitmap : List Byte) : IsPortOp (exec (.load size bitmap)) := by
  by_cases hl : bitmap.length = size.toNat
  · by_cases hs : size.toNat = Config.hw.fbSize
    · refine .finish (fun _ => .ok (loadBitmap Config.hw bitmap)) fun s hb => ?_
      rw [exec, execLoad, whenIdle_idle s _ hb, if_neg (not_not.mpr hl), if_neg (not_not.mpr hs)]
    · refine .raise Status.sizeMismatch fun s hb => ?_
      rw [exec, execLoad, whenIdle_idle s _ hb, if_neg (not_not.mpr hl), if_pos hs]
  · refine .refused .payloadLengthMismatch fun s hb => ?_
    rw [exec, execLoad, whenIdle_idle s _ hb, if_pos hl]

/-- STR is refused for its payload length, or draws its text (R100, R180). -/
theorem str_isPortOp (n y x : Byte) (text : List Byte) : IsPortOp (exec (.str n y x text)) := by
  by_cases hl : text.length = n.toNat
  · refine .finish (textBody Config.hw text y.toNat x.toNat) fun s hb => ?_
    rw [exec, execStr, whenIdle_idle s _ hb, if_neg (not_not.mpr hl)]
  · refine .refused .payloadLengthMismatch fun s hb => ?_
    rw [exec, execStr, whenIdle_idle s _ hb, if_pos hl]

/-- Every operation the host port decodes is one of the four: no command byte of the bus is among them (R95). -/
theorem decodeFields_isPortOp (w : OpWord) (payload : List Byte) :
    IsPortOp (exec (decodeFields w payload)) := by
  rcases decodeFields_cases w payload with ⟨-, h⟩ | ⟨-, h⟩ | ⟨-, h⟩ | ⟨-, h⟩ | ⟨-, h⟩ | ⟨-, h⟩ | ⟨-, h⟩ |
    ⟨-, h⟩ | ⟨-, h⟩ | ⟨-, h⟩ | ⟨-, h⟩ | ⟨-, h⟩ | ⟨-, h⟩ | ⟨-, h⟩ <;> rw [h]
  · exact start_isPortOp .init (fun _ => Framebuffer.zeros Config.hw) fun _ => initTxns Config.hw ..
  · exact finish_isPortOp fun _ => .ok (Framebuffer.zeros Config.hw)
  · exact finish_isPortOp fun fb => .ok (clearRect Config.hw _ _ _ _ fb)
  · exact load_isPortOp ..
  · exact finish_isPortOp fun fb => .ok (setPixel Config.hw _ _ _ fb)
  · exact finish_isPortOp (charBody Config.hw _ _ _)
  · exact str_isPortOp ..
  · exact finish_isPortOp fun fb => .ok (drawDigits Config.hw _ _ _ _ fb)
  · exact finish_isPortOp (fixBody Config.hw _ _ _ 1 3)
  · exact finish_isPortOp (fixBody Config.hw _ _ _ 2 1)
  · exact finish_isPortOp (fixBody Config.hw _ _ _ 3 1)
  · exact finish_isPortOp (fixBody Config.hw _ _ _ 3 0)
  · exact start_isPortOp .flush id (flushTxns Config.hw)
  · exact raise_isPortOp Status.illegalOp

end Sys2Proof.Proofs
end

section
/-! PSTATE, BUSY and STATUS over one step (10_state.md R38 to R40), the hang, and STATUSWORD (R37). -/

namespace Sys2Proof.Proofs

open Sys2Proof Sys2Proof.Machine

/-! ## One step -/

/-- Settles O7. The transport's turn is Accept whatever the head of OUTQ is, and so is the instruction of the command
byte at the head. -/
theorem stepRunsTheDecodedInstruction : Obligations.StepRunsTheDecodedInstruction := by
  refine ⟨fun s d rest ts i hts hreq hb hi => ?_, fun s b q ts i hts hq hi => ?_⟩
  · rw [step_host s ts hts, hostTurn_issue_idle (s.setTurns ts) rest d hreq hb, issue_ok d i rest _ hi]
    rfl
  · have hhead : (s.setTurns ts).outq.head? = some (Txn.cmd b) := by simp [hq]
    rw [step_transport s ts hts, ← acceptCommand_head (s.setTurns ts) b hhead]
    exact (exec_panel b i (s.setTurns ts) hi).symm

/-! ## What a turn does to PSTATE, BUSY and STATUS -/

/-- An accepted operation of the host port writes neither PSTATE (R39) nor OUTLOG (R42). -/
theorem IsPortOp.frame {op : State → Outcome} (hop : IsPortOp op) (s s' : State) (hb : s.busy = false)
    (h : op s = .next s') : s'.pstate = s.pstate ∧ s'.outlog = s.outlog := by
  cases hop with
  | finish body hop =>
    obtain ⟨fb, -, rfl⟩ := finish_next s s' _ (hop s hb ▸ h)
    exact ⟨rfl, rfl⟩
  | raise code hop =>
    cases (hop s hb).symm.trans h
    exact ⟨rfl, rfl⟩
  | start kind left queue hop =>
    cases (hop s hb).symm.trans h
    exact ⟨rfl, rfl⟩
  | refused r hop => cases (hop s hb).symm.trans h

/-- The host's turn writes neither PSTATE nor OUTLOG. -/
theorem hostTurn_frame (s s' : State) (h : hostTurn s = .next s') :
    s'.pstate = s.pstate ∧ s'.outlog = s.outlog := by
  obtain rfl | ⟨d, rest, i, -, hb, hi, hexec⟩ | ⟨rest, rfl⟩ | ⟨rest, r, rfl⟩ := hostTurn_cases s s' h
  · exact ⟨rfl, rfl⟩
  · obtain rfl := eq_decodeFields_of_decodeHost d i hi
    exact (decodeFields_isPortOp _ _).frame (s.setRequests rest) s' hb hexec
  · exact ⟨rfl, rfl⟩
  · exact ⟨rfl, rfl⟩

/-- Only an Issue performed while BUSY = 0 lets the host's turn change BUSY or STATUS (R38, R101). -/
theorem hostTurn_busy_status (s s' : State) (h : hostTurn s = .next s') :
    (s'.busy = s.busy ∧ s'.status = s.status) ∨
      ∃ d rest, s.requests = .issue d :: rest ∧ s.busy = false := by
  obtain rfl | ⟨d, rest, i, hreq, hb, -, -⟩ | ⟨rest, rfl⟩ | ⟨rest, r, rfl⟩ := hostTurn_cases s s' h
  · exact .inl ⟨rfl, rfl⟩
  · exact .inr ⟨d, rest, hreq, hb⟩
  · exact .inl ⟨rfl, rfl⟩
  · exact .inl ⟨rfl, rfl⟩

/-- Accept writes PSTATE only as the completion of an INIT, and then READY (R226). -/
theorem accept_pstate (s : State) :
    (accept s).pstate = s.pstate ∨
      (s.opkind = .init ∧ (∃ t, s.outq = [t]) ∧ (accept s).pstate = .ready) := by
  obtain ⟨-, h⟩ | ⟨t, hq, h⟩ | ⟨t, u, q, -, h⟩ := accept_cases s
  · exact .inl (by rw [h])
  · by_cases hk : s.opkind = .init
    · exact .inr ⟨hk, ⟨t, hq⟩, by simp [h, hk]⟩
    · exact .inl (by simp [h, hk])
  · exact .inl (by rw [h, State.moveOut_pstate])

/-- Accept writes BUSY only when it takes the last transaction (R226). -/
theorem accept_busy (s : State) :
    (accept s).busy = s.busy ∨ ∃ t, s.outq = [t] ∧ (accept s).outlog = s.outlog ++ [t] := by
  obtain ⟨-, h⟩ | ⟨t, hq, h⟩ | ⟨t, u, q, -, h⟩ := accept_cases s
  · exact .inl (by rw [h])
  · exact .inr ⟨t, hq, by simp [h]⟩
  · exact .inl (by rw [h, State.moveOut_busy])

/-- All a step can do to PSTATE (R39). -/
theorem step_pstate (s s' : State) (h : step s = .next s') :
    s'.pstate = s.pstate ∨
    (∃ ts t, s.turns = .transport :: ts ∧ s.opkind = .init ∧ s.outq = [t] ∧ s'.pstate = .ready) ∨
    ∃ ts, s.turns = .reset :: ts ∧ s'.pstate = .uninit := by
  obtain ⟨-, rfl⟩ | ⟨ts, hts, rfl⟩ | ⟨ts, hts, rfl⟩ | ⟨ts, -, hhost⟩ := step_cases s s' h
  · exact .inl rfl
  · exact .inr (.inr ⟨ts, hts, resetBlock_pstate _⟩)
  · obtain hp | ⟨hk, ⟨t, hq⟩, hp⟩ := accept_pstate (s.setTurns ts)
    · exact .inl hp
    · exact .inr (.inl ⟨ts, t, hts, hk, hq, hp⟩)
  · exact .inl (hostTurn_frame _ s' hhost).1

/-! ## The statements -/

/-- Settles O11, by `step_pstate` and the completion of an INIT. -/
theorem pstateIsOneWay : Obligations.PstateIsOneWay := by
  refine ⟨fun s s' h => ⟨fun hu hr => ?_, fun hr hu => ?_⟩, fun s ts t hts hk hq => ?_⟩
  · obtain hp | ⟨ts, t, hts, hk, hq, -⟩ | ⟨ts, -, hp⟩ := step_pstate s s' h
    · simp [hp, hu] at hr
    · exact ⟨ts, t, hts, hk, hq⟩
    · simp [hp] at hr
  · obtain hp | ⟨ts, t, -, -, -, hp⟩ | ⟨ts, hts, -⟩ := step_pstate s s' h
    · simp [hp, hr] at hu
    · simp [hp] at hu
    · exact ⟨ts, hts⟩
  · refine ⟨_, step_transport s ts hts, ?_⟩
    rw [accept_last (s.setTurns ts) t hq]
    simp [hk]

/-- Settles O12: the transport clears BUSY as `accept_busy` says, and the host only performs an Issue while BUSY = 0. -/
theorem busyFallsOnlyByTheLastAcceptance : Obligations.BusyFallsOnlyByTheLastAcceptance := by
  intro s s' h hbusy hidle
  have hne : s'.busy ≠ s.busy := by simp [hbusy, hidle]
  obtain ⟨-, rfl⟩ | ⟨ts, hts, -⟩ | ⟨ts, hts, rfl⟩ | ⟨ts, hts, hhost⟩ := step_cases s s' h
  · exact absurd rfl hne
  · exact .inr ⟨ts, hts⟩
  · obtain hsame | ⟨t, hq, hlog⟩ := accept_busy (s.setTurns ts)
    · exact absurd hsame hne
    · exact .inl ⟨ts, t, hts, hq, hlog⟩
  · obtain ⟨hsame, -⟩ | ⟨-, -, -, hb⟩ := hostTurn_busy_status _ s' hhost
    · exact absurd hsame hne
    · exact absurd (hbusy.symm.trans hb) (by decide)

/-- Settles O14: Accept leaves STATUS alone, and the host changes it as `hostTurn_busy_status` says. -/
theorem statusChangesOnlyOnAcceptedOperations : Obligations.StatusChangesOnlyOnAcceptedOperations := by
  intro s s' h hne
  obtain ⟨-, rfl⟩ | ⟨ts, hts, -⟩ | ⟨ts, -, rfl⟩ | ⟨ts, hts, hhost⟩ := step_cases s s' h
  · exact absurd rfl hne
  · exact .inr ⟨ts, hts⟩
  · obtain ⟨-, hstatus, -⟩ := accept_frame (s.setTurns ts)
    exact absurd hstatus hne
  · obtain ⟨-, hsame⟩ | ⟨d, rest, hreq, hb⟩ := hostTurn_busy_status _ s' hhost
    · exact absurd hsame hne
    · exact .inl ⟨ts, d, rest, hts, hreq, hb⟩

/-- Settles O13, by induction on the number of steps: each one uses up a turn of the host, which holds its Issue. -/
theorem stalledTransportHangs : Obligations.StalledTransportHangs := by
  intro s d rest k hbusy hreq
  induction k generalizing s with
  | zero => exact fun _ => rfl
  | succ k ih =>
    intro hhost
    cases hts : s.turns with
    | nil =>
      have hk := ih s hbusy hreq hhost
      simp only [steps, step_no_turn s hts]
      simpa [hts] using hk
    | cons u ts =>
      obtain rfl : u = .host := hhost u (by simp [hts])
      have hheld := hostTurn_issue_busy (s.setTurns ts) rest d hreq hbusy
      have hk := ih (s.setTurns ts) hbusy hreq fun u hu => hhost u (by simpa [hts] using .inr hu)
      simp only [steps, step_host s ts hts, hheld]
      exact hk

/-! ## STATUSWORD (R37) -/

theorem getLsbD_pstateBit (p : PState) (k : Nat) :
    p.bit.getLsbD k = (decide (k = 0) && decide (p = .ready)) := by
  cases p <;> simp [PState.bit, BitVec.getLsbD_one]

/-- STATUSWORD bit by bit. -/
theorem getLsbD_statusWord (s : State) (k : Nat) :
    (statusWord s).getLsbD k =
      if k < 8 then s.status.getLsbD k
      else if k = 8 then s.busy else if k = 9 then decide (s.pstate = .ready) else false := by
  simp only [statusWord, BitVec.getLsbD_append, getLsbD_pstateBit, BitVec.getLsbD_ofBool, BitVec.getLsbD_zero]
  grind

/-- Settles O26, from the bits of STATUSWORD and the host's turn on each of the two requests. -/
theorem statuswordIsReadAnyTimeAndNeverWritten : Obligations.StatuswordIsReadAnyTimeAndNeverWritten := by
  intro s
  refine ⟨?_, ?_, ?_, fun k hk => ?_, fun rest ts hts hreq => ?_, fun v rest ts hts hreq => ?_⟩
  · ext k hk
    simp [getLsbD_statusWord, hk]
  · exact getLsbD_statusWord s 8
  · exact getLsbD_statusWord s 9
  · rw [getLsbD_statusWord, if_neg (by omega), if_neg (by omega), if_neg (by omega)]
  · rw [step_host s ts hts, hostTurn_readStatus (s.setTurns ts) rest hreq]
    rfl
  · rw [step_host s ts hts, hostTurn_writeStatus (s.setTurns ts) rest v hreq]
    rfl

end Sys2Proof.Proofs
end

section
/-! Non-interference: OUTLOG is an observation, which the block never reads (10_state.md R42). -/

namespace Sys2Proof.Proofs

open Sys2Proof Sys2Proof.Machine

/-- The state with another OUTLOG. -/
def setOutlog (log : List Txn) (s : State) : State := { s with outlog := log }

/-- The outcome with another OUTLOG in its next state, if it has one. -/
def withOutlog (log : List Txn) (o : Outcome) : Outcome :=
  match o with
  | .next s => .next (setOutlog log s)
  | .fault f => .fault f
  | .refused r => .refused r

/-! ## The host's turn -/

section
variable (log : List Txn) (s : State)

@[simp] theorem setOutlog_fb : (setOutlog log s).fb = s.fb := rfl
@[simp] theorem setOutlog_busy : (setOutlog log s).busy = s.busy := rfl

theorem finish_setOutlog (r : Except Refusal Framebuffer) :
    finish (setOutlog log s) r = withOutlog log (finish s r) := by
  cases r <;> rfl

theorem IsPortOp.apply_setOutlog {op : State → Outcome} (hop : IsPortOp op) (hb : s.busy = false) :
    op (setOutlog log s) = withOutlog log (op s) := by
  have hb' : (setOutlog log s).busy = false := hb
  cases hop with
  | finish body hop => rw [hop s hb, hop _ hb']; exact finish_setOutlog log s _
  | raise code hop => rw [hop s hb, hop _ hb']; rfl
  | start kind left queue hop => rw [hop s hb, hop _ hb']; rfl
  | refused r hop => rw [hop s hb, hop _ hb']; rfl

theorem issue_setOutlog (d : Descriptor) (rest : List Request) (hb : s.busy = false) :
    issue d rest (setOutlog log s) = withOutlog log (issue d rest s) := by
  cases hd : decodeHost d with
  | error e => rw [issue_error d e _ _ hd, issue_error d e _ _ hd]; rfl
  | ok i =>
    rw [issue_ok d i _ _ hd, issue_ok d i _ _ hd, eq_decodeFields_of_decodeHost d i hd]
    exact (decodeFields_isPortOp _ _).apply_setOutlog log (s.setRequests rest) hb

theorem hostRead_setOutlog (index : Nat) (rest : List Request) :
    hostRead index rest (setOutlog log s) = withOutlog log (hostRead index rest s) := by
  by_cases h : s.busy ∨ Config.hw.fbSize ≤ index
  · simp only [hostRead, setOutlog_busy, h, if_true]
    rfl
  · simp only [hostRead, setOutlog_busy, setOutlog_fb, h, if_false]
    cases Framebuffer.read s.fb index <;> rfl

theorem hostTurn_setOutlog : hostTurn (setOutlog log s) = withOutlog log (hostTurn s) := by
  have same {rs : List Request} (h : s.requests = rs) : (setOutlog log s).requests = rs := h
  match h : s.requests with
  | [] => rw [hostTurn_no_request s h, hostTurn_no_request _ (same h)]; rfl
  | .issue d :: rest =>
    cases hb : s.busy with
    | false =>
      rw [hostTurn_issue_idle s rest d h hb, hostTurn_issue_idle _ rest d (same h) hb]
      exact issue_setOutlog log s d rest hb
    | true => rw [hostTurn_issue_busy s rest d h hb, hostTurn_issue_busy _ rest d (same h) hb]; rfl
  | .readByte index :: rest =>
    rw [hostTurn_readByte s rest index h, hostTurn_readByte _ rest index (same h)]
    exact hostRead_setOutlog log s index rest
  | .readStatus :: rest => rw [hostTurn_readStatus s rest h, hostTurn_readStatus _ rest (same h)]; rfl
  | .writeStatus v :: rest =>
    rw [hostTurn_writeStatus s rest v h, hostTurn_writeStatus _ rest v (same h)]; rfl

end

/-! ## Accept and reset -/

/-- Accept appends the head of OUTQ to OUTLOG, whatever stands there (R230). -/
theorem accept_outlog (s : State) : (accept s).outlog = s.outlog ++ s.outq.take 1 := by
  obtain ⟨hq, h⟩ | ⟨t, hq, h⟩ | ⟨t, u, q, hq, h⟩ := accept_cases s <;> simp [h, hq]

theorem accept_setOutlog (log : List Txn) (s : State) :
    accept (setOutlog log s) = setOutlog (log ++ s.outq.take 1) (accept s) := by
  obtain ⟨hq, h⟩ | ⟨t, hq, h⟩ | ⟨t, u, q, hq, h⟩ := accept_cases s
  · rw [h, hq, accept_nil (setOutlog log s) hq, List.take_nil, List.append_nil]
  · rw [h, hq, accept_last (setOutlog log s) t hq]; rfl
  · rw [h, hq, accept_more (setOutlog log s) t u q hq]; rfl

/-- Reset forgets OUTLOG: the same state whatever stood there, with OUTLOG empty (R290). -/
theorem resetBlock_setOutlog (log : List Txn) (s : State) :
    resetBlock (setOutlog log s) = setOutlog [] (resetBlock s) := by
  simp only [resetBlock, setOutlog, State.reset]

/-- Every step but a reset appends to OUTLOG, and appends the same to another OUTLOG. -/
theorem step_setOutlog (log : List Txn) (s s' : State) (h : step s = .next s')
    (hreset : ∀ ts, s.turns ≠ .reset :: ts) :
    ∃ new, s'.outlog = s.outlog ++ new ∧ step (setOutlog log s) = .next (setOutlog (log ++ new) s') := by
  obtain ⟨hts, hs'⟩ | ⟨ts, hts, -⟩ | ⟨ts, hts, rfl⟩ | ⟨ts, hts, hhost⟩ := step_cases s s' h
  · refine ⟨[], by rw [hs', List.append_nil], ?_⟩
    rw [hs', List.append_nil]
    exact step_no_turn (setOutlog log s) hts
  · exact absurd hts (hreset ts)
  · refine ⟨s.outq.take 1, accept_outlog (s.setTurns ts), ?_⟩
    rw [step_transport (setOutlog log s) ts hts]
    exact congrArg _ (accept_setOutlog log (s.setTurns ts))
  · obtain ⟨-, hlog⟩ := hostTurn_frame _ s' hhost
    refine ⟨[], hlog.trans (List.append_nil _).symm, ?_⟩
    rw [step_host (setOutlog log s) ts hts, List.append_nil]
    exact (hostTurn_setOutlog log (s.setTurns ts)).trans (congrArg (withOutlog log) hhost)

/-- Settles O19. A reset empties OUTLOG whatever stood there; every other step appends the same to it. -/
theorem blockNeverReadsOutlog : Obligations.BlockNeverReadsOutlog := by
  intro s s' log h
  by_cases hreset : ∃ ts, s.turns = .reset :: ts
  · obtain ⟨ts, hts⟩ := hreset
    have hs' : resetBlock (s.setTurns ts) = s' := by simpa [step_reset s ts hts] using h
    refine ⟨[], ?_, fun _ _ hno => absurd hts (hno ts)⟩
    rw [step_reset { s with outlog := log } ts hts, ← hs']
    exact congrArg _ (resetBlock_setOutlog log (s.setTurns ts))
  · obtain ⟨new, hlog, hstep⟩ := step_setOutlog log s s' h fun ts hts => hreset ⟨ts, hts⟩
    refine ⟨log ++ new, hstep, fun new' hnew' _ => ?_⟩
    rw [List.append_cancel_left (hlog.symm.trans hnew')]

end Sys2Proof.Proofs
end

section
/-! The invariant over one step (20_memory.md R61, R74; 10_state.md R37, R40; 42_panel.md R223, R225), and what a step
does to FB and to the output. -/

namespace Sys2Proof.Proofs

open Sys2Proof Sys2Proof.Machine

/-! ## The agents around the block

The invariant speaks of the block alone: the turns to come and the host's requests and replies do not enter it. -/

section
variable {s : State} (h : Inv s)
include h

theorem inv_setTurns (ts : List Turn) : Inv (s.setTurns ts) :=
  ⟨h.fb_wf, h.status_code, h.busy_outq, h.busy_opkind, h.in_flight⟩

theorem inv_setRequests (rs : List Request) : Inv (s.setRequests rs) :=
  ⟨h.fb_wf, h.status_code, h.busy_outq, h.busy_opkind, h.in_flight⟩

theorem inv_pushReply (r : Reply) : Inv (s.pushReply r) :=
  ⟨h.fb_wf, h.status_code, h.busy_outq, h.busy_opkind, h.in_flight⟩

theorem outq_eq_nil_of_idle (hb : s.busy = false) : s.outq = [] :=
  not_not.mp fun hq => by simpa [hb] using h.busy_outq.mpr hq

theorem opkind_eq_none_of_idle (hb : s.busy = false) : s.opkind = .none :=
  not_not.mp fun hk => by simpa [hb] using h.busy_opkind.mpr hk

end

/-! ## The block's updates -/

/-- With FB and OPKIND as they were, a rest of what was queued is still a rest of the operation's list. -/
theorem inFlight_of_suffix (s s' : State) (hfb : s'.fb = s.fb) (hkind : s'.opkind = s.opkind)
    (hq : s'.outq <:+ s.outq) (h : inFlight s) : inFlight s' := by
  unfold inFlight at h ⊢
  rw [hfb, hkind]
  generalize s.opkind = kind at h ⊢
  cases kind with
  | none => exact List.suffix_nil.mp (h ▸ hq)
  | flush => exact hq.trans h
  | init =>
    obtain ⟨hzero, bus, inv, contrast, precharge, hrest⟩ := h
    exact ⟨hzero, bus, inv, contrast, precharge, hq.trans hrest⟩

/-- Accept of the last transaction leaves an idle block with nothing queued; any other leaves a shorter rest. -/
theorem inv_accept (s : State) (h : Inv s) : Inv (accept s) := by
  obtain ⟨-, ha⟩ | ⟨t, -, ha⟩ | ⟨t, u, q, hq, ha⟩ := accept_cases s <;> rw [ha]
  · exact h
  · exact ⟨h.fb_wf, h.status_code, by simp, by simp, rfl⟩
  · have hbusy : s.busy = true := h.busy_outq.mpr (by simp [hq])
    refine ⟨h.fb_wf, h.status_code, by simp [hbusy], h.busy_opkind, ?_⟩
    exact inFlight_of_suffix s _ rfl rfl (hq ▸ List.suffix_cons t (u :: q)) h.in_flight

theorem inv_resetBlock (s : State) : Inv (resetBlock s) where
  fb_wf := by rw [resetBlock_fb]; exact resetContents_wf Config.hw _
  status_code := .inl (resetBlock_status s)
  busy_outq := by simp
  busy_opkind := by simp
  in_flight := by simp [inFlight]

/-- A memory-only operation on an idle block. -/
theorem inv_write (s : State) (h : Inv s) (hb : s.busy = false) (fb : Framebuffer) (c : Byte)
    (hfb : Framebuffer.wf Config.hw fb) (hc : c = Status.ok ∨ c = Status.sizeMismatch ∨ c = Status.illegalOp) :
    Inv ((s.setFb fb).setStatus c) := by
  refine ⟨hfb, hc, h.busy_outq, h.busy_opkind, ?_⟩
  have hq : s.outq = [] := outq_eq_nil_of_idle h hb
  have hk : s.opkind = .none := opkind_eq_none_of_idle h hb
  simp [inFlight, hk, hq]

/-- INIT clears FB and queues R223's list for its operands. -/
theorem inFlight_launch_init (s : State) (bus inv : Bool) (contrast precharge : Byte) :
    inFlight (((s.setFb (Framebuffer.zeros Config.hw)).launch .init
      (initTxns Config.hw bus inv contrast precharge)).setStatus Status.ok) := by
  simp only [inFlight, State.setStatus_opkind, State.launch_opkind, State.setStatus_fb, State.launch_fb, State.setFb_fb,
    State.setStatus_outq, State.launch_outq, true_and]
  exact ⟨bus, inv, contrast, precharge, List.suffix_refl _⟩

/-- A multi-transaction operation: any list that is not empty and is in flight once queued. -/
theorem inv_launch (s : State) (kind : OpKind) (fb : Framebuffer) (q : List Txn) (hfb : Framebuffer.wf Config.hw fb)
    (hkind : kind ≠ .none) (hq : q ≠ [])
    (hflight : inFlight (((s.setFb fb).launch kind q).setStatus Status.ok)) :
    Inv (((s.setFb fb).launch kind q).setStatus Status.ok) :=
  ⟨hfb, .inl rfl, by simp [hq], by simp [hkind], hflight⟩

/-! ## The instruction, the host's turn, the step -/

theorem inv_exec (i : Instr) (s s' : State) (h : Inv s) (hexec : exec i s = .next s') : Inv s' := by
  obtain rfl | rfl | ⟨hb, fb, c, rfl, hwf, hc⟩ | ⟨-, rfl⟩ | ⟨-, bus, inv, contrast, precharge, rfl⟩ :=
    exec_cases i s s' hexec
  · exact h
  · exact inv_accept s h
  · exact inv_write s h hb fb c (hwf h.fb_wf) hc
  · exact inv_launch s .flush _ _ h.fb_wf (by decide) (flushTxns_ne_nil _) (List.suffix_refl _)
  · exact inv_launch s .init _ _ (zeros_wf _) (by decide) (initTxns_ne_nil _ _ _ _)
      (inFlight_launch_init s bus inv contrast precharge)

theorem inv_hostTurn (s s' : State) (h : Inv s) (hhost : hostTurn s = .next s') : Inv s' := by
  obtain rfl | ⟨d, rest, i, -, -, -, hexec⟩ | ⟨rest, rfl⟩ | ⟨rest, r, rfl⟩ := hostTurn_cases s s' hhost
  · exact h
  · exact inv_exec i _ s' (inv_setRequests h rest) hexec
  · exact inv_setRequests h rest
  · exact inv_pushReply (inv_setRequests h rest) r

/-- Settles O21: each agent's turn keeps the invariant. -/
theorem everyStepKeepsTheInvariant : Obligations.EveryStepKeepsTheInvariant := by
  intro s s' h hstep
  obtain ⟨-, rfl⟩ | ⟨ts, -, rfl⟩ | ⟨ts, -, rfl⟩ | ⟨ts, -, hhost⟩ := step_cases s s' hstep
  · exact h
  · exact inv_resetBlock _
  · exact inv_accept _ (inv_setTurns h ts)
  · exact inv_hostTurn _ s' (inv_setTurns h ts) hhost

/-! ## FB and the output over one step -/

/-- While BUSY = 1 the host holds an Issue, so its turn writes neither FB (R74) nor OUTQ. -/
theorem hostTurn_fb_outq_of_busy (s s' : State) (hb : s.busy = true) (h : hostTurn s = .next s') :
    s'.fb = s.fb ∧ s'.outq = s.outq := by
  obtain rfl | ⟨d, rest, i, -, hidle, -, -⟩ | ⟨rest, rfl⟩ | ⟨rest, r, rfl⟩ := hostTurn_cases s s' h
  · exact ⟨rfl, rfl⟩
  · exact absurd (hb.symm.trans hidle) (by decide)
  · exact ⟨rfl, rfl⟩
  · exact ⟨rfl, rfl⟩

/-- Settles O16: Accept never touches FB, and the host does not while BUSY = 1. -/
theorem framebufferIsStillWhileBusy : Obligations.FramebufferIsStillWhileBusy := by
  intro s s' hstep hb
  obtain ⟨-, rfl⟩ | ⟨ts, hts, -⟩ | ⟨ts, -, rfl⟩ | ⟨ts, -, hhost⟩ := step_cases s s' hstep
  · exact .inl rfl
  · exact .inr ⟨ts, hts⟩
  · obtain ⟨hfb, -⟩ := accept_frame (s.setTurns ts)
    exact .inl hfb
  · obtain ⟨hfb, -⟩ := hostTurn_fb_outq_of_busy (s.setTurns ts) s' hb hhost
    exact .inl hfb

/-- The host's turn appends to the output: while BUSY = 1 nothing, and otherwise what it queues on an empty OUTQ. -/
theorem hostTurn_output (s s' : State) (h : Inv s) (hhost : hostTurn s = .next s') :
    ∃ new, s'.outlog ++ s'.outq = s.outlog ++ s.outq ++ new := by
  obtain ⟨-, hlog⟩ := hostTurn_frame s s' hhost
  cases hb : s.busy with
  | false => exact ⟨s'.outq, by rw [hlog, outq_eq_nil_of_idle h hb, List.append_nil]⟩
  | true =>
    obtain ⟨-, hq⟩ := hostTurn_fb_outq_of_busy s s' hb hhost
    exact ⟨[], by rw [hlog, hq, List.append_nil]⟩

/-- Settles O17: Accept only moves the border between OUTLOG and OUTQ, and the host's turn appends. -/
theorem outputGrowsAtItsEndOnly : Obligations.OutputGrowsAtItsEndOnly := by
  intro s s' h hstep
  obtain ⟨-, rfl⟩ | ⟨ts, hts, -⟩ | ⟨ts, -, rfl⟩ | ⟨ts, -, hhost⟩ := step_cases s s' hstep
  · exact .inl ⟨[], (List.append_nil _).symm⟩
  · exact .inr ⟨ts, hts⟩
  · exact .inl ⟨[], (accept_order (s.setTurns ts)).trans (List.append_nil _).symm⟩
  · exact .inl (hostTurn_output (s.setTurns ts) s' (inv_setTurns h ts) hhost)

end Sys2Proof.Proofs
end

section
/-! What the host reads of FB (20_memory.md R65), and the map of pixels to bits (R63). -/

namespace Sys2Proof.Proofs

open Sys2Proof Sys2Proof.Machine

theorem hostRead_byte (s : State) (index : Nat) (rest : List Request) (b : Byte) (hb : s.busy = false)
    (hi : index < 1024) (hread : Framebuffer.read s.fb index = some b) :
    hostRead index rest s = .next ((s.setRequests rest).pushReply (.byte b)) := by
  simp [hostRead, hb, hi, hread]

theorem hostRead_refused (s : State) (index : Nat) (rest : List Request) (h : s.busy = true ∨ 1024 ≤ index) :
    hostRead index rest s = .refused .hostReadUndefined := if_pos h

/-- Settles O25: in canonical form every address below FB_SIZE reads as a byte. -/
theorem hostReadReturnsTheByte : Obligations.HostReadReturnsTheByte := by
  intro s i rest ts hwf hts hreq
  have hturn : step s = hostRead i rest (s.setTurns ts) :=
    (step_host s ts hts).trans (hostTurn_readByte (s.setTurns ts) rest i hreq)
  rw [hturn]
  refine ⟨fun hb hi => ?_, hostRead_refused (s.setTurns ts) i rest⟩
  obtain ⟨b, hread⟩ := Option.isSome_iff_exists.mp ((read_isSome Config.hw s.fb hwf i).mpr hi)
  exact ⟨b, hread, hostRead_byte (s.setTurns ts) i rest b hb hi hread⟩

theorem pixel_eq_map_read (fb : Framebuffer) (x y : Nat) :
    Framebuffer.pixel Config.hw fb x y =
      (Framebuffer.read fb (y / 8 * 128 + x)).map fun b => b.getLsbD (y % 8) := by
  unfold Framebuffer.pixel
  rw [show byteIndex Config.hw x (pageOf y) = y / 8 * 128 + x from rfl]
  cases Framebuffer.read fb (y / 8 * 128 + x) <;> rfl

/-- Settles O32: bit `b` of byte `i` is the pixel at column `i mod 128`, row `i div 128 * 8 + b`. -/
theorem pixelsAndBitsAreOneToOne : Obligations.PixelsAndBitsAreOneToOne := by
  refine ⟨pixel_eq_map_read, fun x y hx hy => ?_, fun i b hi hb => ?_⟩
  · omega
  · exact ⟨i % 128, i / 128 * 8 + b, by omega, fun x' y' hx hy hbyte hbit => by omega⟩

end Sys2Proof.Proofs
end

section
/-! Descriptors on a byte carrier (20_memory.md R68, 30_encoding.md R97). -/

namespace Sys2Proof.Proofs

open Sys2Proof Sys2Proof.Machine

/-! ## Reading back -/

theorem bytesOfWord_eq (w : OpWord) :
    bytesOfWord w = [w.extractLsb' 0 8, w.extractLsb' 8 8, w.extractLsb' 16 8, w.extractLsb' 24 8,
      w.extractLsb' 32 8, w.extractLsb' 40 8, w.extractLsb' 48 8, w.extractLsb' 56 8] := rfl

/-- After the eight bytes of a word, reading takes the payload length that word names (R97). -/
theorem readDescriptor_bytesOfWord (w : OpWord) (tail : List Byte) :
    readDescriptor (bytesOfWord w ++ tail) =
      if requiredLength w ≤ tail.length then .ok (⟨w, tail.take (requiredLength w)⟩, tail.drop (requiredLength w))
      else .error .truncated := by
  simp only [bytesOfWord_eq, List.cons_append, List.nil_append, readDescriptor, word_of_bytes]

theorem readDescriptor_bytes (d : Descriptor) (rest : List Byte) (h : d.payload.length = requiredLength d.word) :
    readDescriptor (d.bytes ++ rest) = .ok (d, rest) := by
  rw [Descriptor.bytes, List.append_assoc, readDescriptor_bytesOfWord, ← h, if_pos (by simp),
    List.take_left, List.drop_left]

/-- Decoding a carrier that begins with a descriptor is decoding that descriptor at the host port. -/
theorem decodeBytes_bytes (d : Descriptor) (rest : List Byte) (i : Instr)
    (h : d.payload.length = requiredLength d.word) (hi : decodeHost d = .ok i) :
    decodeBytes (d.bytes ++ rest) = .ok (i, rest) := by
  simp only [decodeBytes, readDescriptor_bytes d rest h, hi]

/-! ## Encoded instructions -/

theorem length_eq_of_decodeHost_ok (d : Descriptor) (i : Instr) (h : decodeHost d = .ok i) :
    d.payload.length = requiredLength d.word := by
  unfold decodeHost at h
  split at h
  · assumption
  · cases h

/-- A reserved opcode requires no payload and stands for RESERVED (R99, R100). -/
theorem decodeHost_reserved (w : OpWord) (h : isReservedOp (opField w)) :
    decodeHost ⟨w, []⟩ = .ok (.reserved (opField w)) := by
  have hlen : requiredLength w = 0 := by
    unfold requiredLength
    split <;> omega
  have hfields : decodeFields w [] = .reserved (opField w) := by
    unfold decodeFields
    split
    case h_14 => rfl
    all_goals omega
  rw [decodeHost_ok ⟨w, []⟩ hlen.symm, hfields]

/-- The host port reads an encoded instruction back, when it is well formed (R96, R100). -/
theorem decodeHost_encode (i : Instr) (d : Descriptor) (hwf : WellFormed i) (h : encode i = .host d) :
    decodeHost d = .ok i := by
  cases i
  case load size bitmap =>
    cases h
    simp [decodeHost, requiredLength, decodeFields, show bitmap.length = size.toNat from hwf]
  case str n y x text =>
    cases h
    simp [decodeHost, requiredLength, decodeFields, show text.length = n.toNat from hwf]
  case reserved op =>
    cases h
    simpa using decodeHost_reserved (opWord op 0 0 0 0) (by simpa using hwf)
  case init | clear | clrrect | setpx | char | uint | fix13 | fix21 | fix31 | fix30 | flush =>
    cases h
    simp [decodeHost, requiredLength, decodeFields]
  -- The command bytes stand on the bus.
  all_goals cases h

/-- Settles O2: the carrier gives back the descriptor, which the host port then decodes. -/
theorem byteCarrierRoundTrip : Obligations.ByteCarrierRoundTrip := by
  refine ⟨fun d rest hlen => ⟨readDescriptor_bytes d rest hlen, ?_⟩, fun i d rest hwf henc => ?_⟩
  · exact decodeBytes_bytes d rest _ hlen (decodeHost_ok d hlen)
  · have hi := decodeHost_encode i d hwf henc
    exact decodeBytes_bytes d rest i (length_eq_of_decodeHost_ok d i hi) hi

end Sys2Proof.Proofs
end

section
/-! The memory-only operations write FB and STATUS alone (20_memory.md R70). -/

namespace Sys2Proof.Proofs

open Sys2Proof Sys2Proof.Machine

/-- Wherever `op` answers a next state, it has written at most FB and STATUS. -/
def WritesFbStatusOnly (op : State → Outcome) : Prop :=
  ∀ s t : State, op s = .next t → t = { s with fb := t.fb, status := t.status }

theorem finish_writesFbStatusOnly (body : State → Except Refusal Framebuffer) :
    WritesFbStatusOnly fun s => finish s (body s) := by
  intro s t h
  obtain ⟨fb, -, rfl⟩ := finish_next s t _ h
  rfl

theorem raise_writesFbStatusOnly (code : Byte) : WritesFbStatusOnly fun s => raise s code := by
  intro s t h
  cases h
  rfl

theorem refused_writesFbStatusOnly (r : Refusal) : WritesFbStatusOnly fun _ => .refused r := by
  intro s t h
  cases h

theorem WritesFbStatusOnly.ite {op op' : State → Outcome} (c : Prop) [Decidable c] (h : WritesFbStatusOnly op)
    (h' : WritesFbStatusOnly op') : WritesFbStatusOnly fun s => if c then op s else op' s := by
  by_cases hc : c
  · simpa only [if_pos hc] using h
  · simpa only [if_neg hc] using h'

/-- Holding changes nothing at all (R101). -/
theorem WritesFbStatusOnly.whenIdle {op : State → Outcome} (h : WritesFbStatusOnly op) :
    WritesFbStatusOnly fun s => whenIdle s op := by
  intro s t hop
  obtain hb | hb := Bool.eq_false_or_eq_true s.busy
  · cases (whenIdle_busy s op hb).symm.trans hop
    rfl
  · exact h s t ((whenIdle_idle s op hb).symm.trans hop)

/-- LOAD is refused, or reports SIZE_MISMATCH, or draws (R100, R140). -/
theorem load_writesFbStatusOnly (size : Word32) (bitmap : List Byte) :
    WritesFbStatusOnly (exec (.load size bitmap)) :=
  .whenIdle (.ite _ (refused_writesFbStatusOnly _)
    (.ite _ (raise_writesFbStatusOnly _) (finish_writesFbStatusOnly fun _ => .ok (loadBitmap Config.hw bitmap))))

/-- STR is refused, or draws (R100, R180). -/
theorem str_writesFbStatusOnly (n y x : Byte) (text : List Byte) : WritesFbStatusOnly (exec (.str n y x text)) :=
  .whenIdle (.ite _ (refused_writesFbStatusOnly _)
    (finish_writesFbStatusOnly fun s => textBody Config.hw text y.toNat x.toNat s.fb))

/-- Settles O34. A memory-only operation either draws (`finish`), reports an error (`raise`) or is refused. -/
theorem memoryOnlyOperationsTouchNoDevice : Obligations.MemoryOnlyOperationsTouchNoDevice := by
  intro i s t hmem
  revert s t
  show WritesFbStatusOnly (exec i)
  cases i
  case clear | clrrect | setpx | char | uint | fix13 | fix21 | fix31 | fix30 =>
    exact .whenIdle (finish_writesFbStatusOnly _)
  case load size bitmap => exact load_writesFbStatusOnly size bitmap
  case str n y x text => exact str_writesFbStatusOnly n y x text
  case reserved => exact .whenIdle (raise_writesFbStatusOnly Status.illegalOp)
  all_goals cases hmem

end Sys2Proof.Proofs
end

section
/-! Decode and encode agree on both ports, and decoding reads the fields an opcode uses and nothing else
(30_encoding.md R91 to R100, R103). -/

namespace Sys2Proof.Proofs

open Sys2Proof Sys2Proof.Machine

/-! ## Encoding, then decoding -/

/-- The output bus reads an encoded command byte back (R103). -/
theorem decodePanel_encode (i : Instr) (b : Byte) (h : encode i = .panel b) : decodePanel b = .ok i := by
  cases i
  case outNormalInverse inverse => cases inverse <;> cases h <;> rfl
  -- The operations of the host port are no command bytes.
  case init | clear | clrrect | load | setpx | char | str | uint | fix13 | fix21 | fix31 | fix30 | flush | reserved =>
    cases h
  all_goals
    cases h
    rfl

/-- Settles O1, port by port. -/
theorem decodeOfEncodeIsTheInstruction : Obligations.DecodeOfEncodeIsTheInstruction := by
  intro i hwf
  cases h : encode i with
  | host d => exact decodeHost_encode i d hwf h
  | panel b => exact decodePanel_encode i b h

/-! ## The fields under a mask (R96, R98) -/

section
variable (w mask : OpWord)

/-- A field that a mask holds in full is the field of the masked word. -/
theorem extractLsb'_and_of_allOnes (start len : Nat) (h : mask.extractLsb' start len = BitVec.allOnes len) :
    (w &&& mask).extractLsb' start len = w.extractLsb' start len := by
  rw [BitVec.extractLsb'_and, h, BitVec.and_allOnes]

theorem opField_and (h : opField mask = 0xFF) : opField (w &&& mask) = opField w :=
  extractLsb'_and_of_allOnes w mask 0 8 h

theorem aField_and (h : aField mask = 0xFF) : aField (w &&& mask) = aField w :=
  extractLsb'_and_of_allOnes w mask 8 8 h

theorem bField_and (h : bField mask = 0xFF) : bField (w &&& mask) = bField w :=
  extractLsb'_and_of_allOnes w mask 16 8 h

theorem cField_and (h : cField mask = 0xFF) : cField (w &&& mask) = cField w :=
  extractLsb'_and_of_allOnes w mask 24 8 h

theorem dField_and (h : dField mask = 0xFF) : dField (w &&& mask) = dField w :=
  extractLsb'_and_of_allOnes w mask 32 8 h

theorem vField_and (h : vField mask = 0xFFFFFFFF) : vField (w &&& mask) = vField w :=
  extractLsb'_and_of_allOnes w mask 32 32 h

end

/-- Every opcode uses OP (R95). -/
theorem opField_usedMask (op : Byte) : opField (usedMask op) = 0xFF := by
  unfold usedMask
  split <;> rfl

theorem opField_and_usedMask (w : OpWord) : opField (w &&& usedMask (opField w)) = opField w :=
  opField_and w _ (opField_usedMask _)

/-- The required length stands in used fields: V of LOAD, A of STR (R100). -/
theorem requiredLength_and_usedMask (w : OpWord) :
    requiredLength (w &&& usedMask (opField w)) = requiredLength w := by
  unfold requiredLength
  rw [opField_and_usedMask]
  split
  case h_1 hop => simp (disch := decide) [usedMask, hop, vField_and]
  case h_2 hop => simp (disch := decide) [usedMask, hop, aField_and]
  case h_3 => rfl

/-- Every operand of the operation stands in used fields (R96). -/
theorem decodeFields_and_usedMask (w : OpWord) (payload : List Byte) :
    decodeFields (w &&& usedMask (opField w)) payload = decodeFields w payload := by
  unfold decodeFields
  rw [opField_and_usedMask]
  split
  case h_14 => rfl
  all_goals
    rename_i hop
    simp (disch := decide) [usedMask, hop, aField_and, bField_and, cField_and, dField_and, vField_and]

/-- The host port reads nothing of a word but the bits its opcode uses (R98). -/
theorem decodeHost_and_usedMask (w : OpWord) (payload : List Byte) :
    decodeHost ⟨w &&& usedMask (opField w), payload⟩ = decodeHost ⟨w, payload⟩ := by
  simp only [decodeHost, requiredLength_and_usedMask, decodeFields_and_usedMask]

/-- Settles O4: words that agree on the used bits have the same opcode, so the same mask. -/
theorem unusedFieldsAreIgnored : Obligations.UnusedFieldsAreIgnored := by
  intro w w' payload h
  have hop : opField w = opField w' := by
    rw [← opField_and_usedMask w, h, opField_and _ _ (opField_usedMask _)]
  rw [← decodeHost_and_usedMask w, h, hop, decodeHost_and_usedMask w']

/-! ## Opcode by opcode -/

/-- Settles O45: each is an arm of the decoder. -/
theorem fixedDecimalOpcodesDecode : Obligations.FixedDecimalOpcodesDecode := by
  intro w payload
  refine ⟨fun h => ?_, fun h => ?_, fun h => ?_, fun h => ?_⟩ <;> simp [decodeFields, h]

/-- Settles O3, by evaluating the decoder on each word. -/
theorem workedEncodingsDecode : Obligations.WorkedEncodingsDecode := by
  unfold Obligations.WorkedEncodingsDecode
  decide

/-- Settles O53, by evaluating the assembler on each line. -/
theorem assemblerGivesTheWorkedWords : Obligations.AssemblerGivesTheWorkedWords := by
  unfold Obligations.AssemblerGivesTheWorkedWords
  decide +kernel

end Sys2Proof.Proofs
end

section
/-! Issue at the port: the payload length is checked first, an Issue is held while BUSY = 1, and a reserved opcode only
reports (30_encoding.md R99 to R101). -/

namespace Sys2Proof.Proofs

open Sys2Proof Sys2Proof.Machine

theorem requiredLength_eq (w : OpWord) :
    requiredLength w =
      if opField w = 0x04 then (vField w).toNat else if opField w = 0x07 then (aField w).toNat else 0 := by
  unfold requiredLength
  split
  case h_1 hop => rw [if_pos (BitVec.eq_of_toNat_eq hop)]
  case h_2 hop =>
    obtain hop : opField w = 0x07 := BitVec.eq_of_toNat_eq hop
    rw [hop, if_neg (by decide), if_pos rfl]
  case h_3 hload hstr =>
    rw [if_neg fun h => hload (congrArg BitVec.toNat h), if_neg fun h => hstr (congrArg BitVec.toNat h)]

theorem decodeHost_of_length_ne (d : Descriptor) (h : d.payload.length ≠ requiredLength d.word) :
    decodeHost d = .error .payloadLengthMismatch := if_neg h

/-- Settles O5: the port decodes before it performs anything, and decoding checks the length first. -/
theorem payloadLengthMismatchIsRefused : Obligations.PayloadLengthMismatchIsRefused := by
  intro d
  refine ⟨requiredLength_eq d.word, fun s rest ts hts hreq hb hlen => ?_⟩
  rw [step_host s ts hts, hostTurn_issue_idle (s.setTurns ts) rest d hreq hb]
  exact issue_error d _ rest _ (decodeHost_of_length_ne d hlen)

/-- Settles O6: both meanings check the length before anything else. -/
theorem illFormedTermsAreRefused : Obligations.IllFormedTermsAreRefused := by
  refine ⟨fun s size bitmap hb hlen => ?_, fun s n y x text hb hlen => ?_⟩
  · rw [exec, execLoad, whenIdle_idle s _ hb, if_pos hlen]
  · rw [exec, execStr, whenIdle_idle s _ hb, if_pos hlen]

/-- While BUSY = 1 the meaning of every operation of the host port holds (R101). -/
theorem exec_decodeFields_busy (w : OpWord) (payload : List Byte) (s : State) (hb : s.busy = true) :
    exec (decodeFields w payload) s = .next s := by
  unfold decodeFields
  split
  all_goals
    rw [exec]
    exact whenIdle_busy s _ hb

/-- Settles O8: the port holds the Issue, and so would the meaning. -/
theorem issueIsHeldWhileBusy : Obligations.IssueIsHeldWhileBusy := by
  refine ⟨fun s d rest ts hts hreq hb => ?_, fun s w payload hb => exec_decodeFields_busy w payload s hb⟩
  rw [step_host s ts hts]
  exact hostTurn_issue_busy (s.setTurns ts) rest d hreq hb

/-- A reserved opcode stands for RESERVED, whatever comes with it (R95, R99). -/
theorem decodeFields_reserved (w : OpWord) (payload : List Byte) (h : isReservedOp (opField w)) :
    decodeFields w payload = .reserved (opField w) := by
  unfold decodeFields
  split
  case h_14 => rfl
  all_goals omega

theorem exec_reserved_idle (op : Byte) (s : State) (hb : s.busy = false) :
    exec (.reserved op) s = .next (s.setStatus Status.illegalOp) := by
  rw [exec, execReserved, whenIdle_idle s _ hb, raise]

/-- Settles O33, by the decoder's last arm and the meaning of RESERVED. -/
theorem reservedOpcodesOnlyReportIllegalOp : Obligations.ReservedOpcodesOnlyReportIllegalOp := by
  refine ⟨fun w payload h => ?_, fun s op hb => exec_reserved_idle op s hb⟩
  exact decodeFields_reserved w payload (h.imp_left (congrArg BitVec.toNat))

end Sys2Proof.Proofs
end

section
/-! The transactions the block queues (30_encoding.md R102, 42_panel.md R221 to R224). -/

namespace Sys2Proof.Proofs

open Sys2Proof Sys2Proof.Machine

/-- A page is six command bytes and its data (R224). -/
theorem mem_pageTxns (p : Params) (fb : Framebuffer) (page : Nat) (t : Txn) (h : t ∈ pageTxns p fb page) :
    (∃ b, t = Txn.cmd b) ∨ t = Txn.data (pageBytes p fb page) := by
  simp only [pageTxns, List.mem_cons, List.not_mem_nil, or_false] at h
  obtain h | h | h | h | h | h | h := h
  case inr.inr.inr.inr.inr.inr => exact .inr h
  all_goals exact .inl ⟨_, h⟩

/-- Of a canonical framebuffer a flush is command bytes and pages of WIDTH data bytes (R224). -/
theorem mem_flushTxns (p : Params) (hp : p.Valid) (fb : Framebuffer) (hfb : Framebuffer.wf p fb) (t : Txn)
    (h : t ∈ flushTxns p fb) :
    (∃ b, t = Txn.cmd b) ∨ ∃ bytes, bytes.length = p.width ∧ t = Txn.data bytes := by
  obtain ⟨page, hpage, ht⟩ := List.mem_flatMap.mp h
  obtain hcmd | hdata := mem_pageTxns p fb page t ht
  · exact .inl hcmd
  · exact .inr ⟨_, pageBytes_length p hp fb hfb page (List.mem_range.mp hpage), hdata⟩

/-- INIT's list is BusInit, command bytes, and the flush of a cleared buffer (R223). -/
theorem mem_initTxns (p : Params) (bus inv : Bool) (contrast precharge : Byte) (t : Txn)
    (h : t ∈ initTxns p bus inv contrast precharge) :
    t = .busInit ∨ (∃ b, t = Txn.cmd b) ∨ t ∈ flushTxns p (Framebuffer.zeros p) := by
  simp only [initTxns, List.mem_append, List.mem_map] at h
  obtain (hbus | ⟨b, -, hcmd⟩) | hflush := h
  · cases bus with
    | false => cases hbus
    | true => exact .inl (List.mem_singleton.mp hbus)
  · exact .inr (.inl ⟨b, hcmd.symm⟩)
  · exact .inr (.inr hflush)

/-- What stands in OUTQ is of the list of the operation in flight. -/
theorem mem_outq (s : State) (h : Inv s) (t : Txn) (ht : t ∈ s.outq) :
    t = .busInit ∨ (∃ b, t = Txn.cmd b) ∨ ∃ bytes, bytes.length = 128 ∧ t = Txn.data bytes := by
  have hflight := h.in_flight
  unfold inFlight at hflight
  split at hflight
  · simp [hflight] at ht
  · exact .inr (mem_flushTxns _ Config.hw_valid s.fb h.fb_wf t (hflight.subset ht))
  · obtain ⟨-, bus, inv, contrast, precharge, hrest⟩ := hflight
    obtain hbus | hcmd | hflush := mem_initTxns _ bus inv contrast precharge t (hrest.subset ht)
    · exact .inl hbus
    · exact .inr (.inl hcmd)
    · exact .inr (mem_flushTxns _ Config.hw_valid _ (zeros_wf _) t hflush)

/-- Settles O18, form by form of `mem_outq`. -/
theorem queuedTransactionsAreCommandsOrPages : Obligations.QueuedTransactionsAreCommandsOrPages := by
  refine ⟨Config.hw_ctrl_ne, fun s h t ht => ?_⟩
  obtain rfl | ⟨b, rfl⟩ | ⟨bytes, hlen, rfl⟩ := mem_outq s h t ht
  · exact .inl ⟨rfl, rfl⟩
  · exact .inr (.inl ⟨b, rfl⟩)
  · exact .inr (.inr ⟨bytes, hlen, rfl⟩)

end Sys2Proof.Proofs
end

section
/-! STR as CHAR of each character (30_encoding.md R106, 41_glyph.md R175, R180). -/

namespace Sys2Proof.Proofs

open Sys2Proof Sys2Proof.Machine

theorem exec_char_inFont (c y x : Byte) (s : State) (hb : s.busy = false) (hc : inFont Config.hw c.toNat) :
    exec (.char c y x) s =
      .next ((s.setFb (drawCell Config.hw c.toNat y.toNat x.toNat s.fb)).setStatus Status.ok) := by
  rw [exec, execChar, whenIdle_idle s _ hb, charBody_inFont _ _ _ _ _ hc, finish_ok]

theorem textBody_inFont (p : Params) (text : List Byte) (y x : Nat) (fb : Framebuffer)
    (h : ∀ c ∈ text, inFont p c.toNat) : textBody p text y x fb = .ok (drawText p text y x fb) := if_pos h

theorem exec_str_inFont (n y x : Byte) (text : List Byte) (s : State) (hb : s.busy = false)
    (hlen : text.length = n.toNat) (hfont : ∀ c ∈ text, inFont Config.hw c.toNat) :
    exec (.str n y x text) s =
      .next ((s.setFb (drawText Config.hw text y.toNat x.toNat s.fb)).setStatus Status.ok) := by
  rw [exec, execStr, whenIdle_idle s _ hb, if_neg (not_not.mpr hlen), textBody_inFont _ _ _ _ _ hfont, finish_ok]

theorem execAll_cons {i : Instr} {s t : State} (h : exec i s = .next t) (rest : List Instr) :
    execAll (i :: rest) s = execAll rest t := by
  rw [execAll, h]

/-- CHAR of each character from cell `x + k` on draws the text there, while the cells have an 8-bit position; of no
character it leaves STATUS alone. -/
theorem execAll_chars (y x : Byte) (text : List Byte) (k : Nat) (s : State) (hb : s.busy = false)
    (hfit : x.toNat + k + text.length ≤ 256) (hfont : ∀ c ∈ text, inFont Config.hw c.toNat) :
    execAll ((text.zipIdx k).map fun ck => .char ck.1 y (x + BitVec.ofNat 8 ck.2)) s =
      .next ((s.setFb (drawText Config.hw text y.toNat (x.toNat + k) s.fb)).setStatus
        (if text = [] then s.status else Status.ok)) := by
  induction text generalizing k s with
  | nil => rfl
  | cons c rest ih =>
    rw [List.length_cons] at hfit
    have hx : (x + BitVec.ofNat 8 k).toNat = x.toNat + k := by
      rw [BitVec.toNat_add, BitVec.toNat_ofNat]
      omega
    have hchar := exec_char_inFont c y (x + BitVec.ofNat 8 k) s hb (hfont c List.mem_cons_self)
    rw [List.zipIdx_cons, List.map_cons, execAll_cons hchar, hx,
      ih (k + 1) _ ?idle (by omega) fun c hc => hfont c (List.mem_cons_of_mem _ hc), State.setStatus_status, ite_self,
      if_neg (List.cons_ne_nil c rest)]
    case idle => exact hb
    rfl

/-- Settles O39: both draw the text and leave STATUS = OK. -/
theorem strEqualsSequentialChars : Obligations.StrEqualsSequentialChars := by
  intro s n y x text hb hne hlen hfit hfont
  rw [exec_str_inFont n y x text s hb hlen hfont, execAll_chars y x text 0 s hb (by omega) hfont, if_neg hne]
  rfl

end Sys2Proof.Proofs
end

section
/-! CLEAR, CLRRECT, LOAD and SETPX: what an accepted operation leaves in every byte of FB and in STATUS
(40_framebuffer.md R131 to R151). -/

namespace Sys2Proof.Proofs

open Sys2Proof Sys2Proof.Machine

/-! ## What an accepted operation answers -/

/-- An operation that draws leaves its buffer and STATUS = OK, and nothing else changes (R38, R101). The buffer is a
variable here, so that no proof compares two buffers cell by cell. -/
theorem exists_next_drawn {o : Outcome} {s : State} {fb : Framebuffer}
    (h : o = .next ((s.setFb fb).setStatus Status.ok)) :
    ∃ t, o = .next t ∧ t = { s with fb := t.fb, status := 0x00 } ∧ t.fb = fb := ⟨_, h, rfl, rfl⟩

theorem setFb_setStatus_idem (s : State) (fb : Framebuffer) (code : Byte) :
    (((s.setFb fb).setStatus code).setFb fb).setStatus code = (s.setFb fb).setStatus code := rfl

section
variable (s : State) (hb : s.busy = false)
include hb

theorem exec_clear_idle :
    exec .clear s = .next ((s.setFb (Framebuffer.zeros Config.hw)).setStatus Status.ok) := by
  rw [exec, execClear, whenIdle_idle s _ hb, finish_ok]

theorem exec_clrrect_idle (xf xl pf pl : Byte) :
    exec (.clrrect xf xl pf pl) s =
      .next ((s.setFb (clearRect Config.hw xf.toNat xl.toNat pf.toNat pl.toNat s.fb)).setStatus Status.ok) := by
  rw [exec, execClrrect, whenIdle_idle s _ hb, finish_ok]

theorem exec_load_mismatch (size : Word32) (bitmap : List Byte) (hlen : bitmap.length = size.toNat)
    (hsize : size.toNat ≠ Config.hw.fbSize) :
    exec (.load size bitmap) s = .next (s.setStatus Status.sizeMismatch) := by
  rw [exec, execLoad, whenIdle_idle s _ hb, if_neg (not_not.mpr hlen), if_pos hsize, raise]

theorem exec_load_full (size : Word32) (bitmap : List Byte) (hlen : bitmap.length = size.toNat)
    (hsize : size.toNat = Config.hw.fbSize) :
    exec (.load size bitmap) s = .next ((s.setFb (loadBitmap Config.hw bitmap)).setStatus Status.ok) := by
  rw [exec, execLoad, whenIdle_idle s _ hb, if_neg (not_not.mpr hlen), if_neg (not_not.mpr hsize), finish_ok]

theorem exec_setpx_idle (state : Bool) (x y : Byte) :
    exec (.setpx state x y) s =
      .next ((s.setFb (setPixel Config.hw state x.toNat y.toNat s.fb)).setStatus Status.ok) := by
  rw [exec, execSetpx, whenIdle_idle s _ hb, finish_ok]

end

/-! ## CLEAR -/

/-- Below FB_SIZE every address of a canonical buffer reads as a byte (R61). -/
theorem exists_read_eq_some (p : Params) (fb : Framebuffer) (hwf : Framebuffer.wf p fb) (i : Nat) (hi : i < p.fbSize) :
    ∃ b, Framebuffer.read fb i = some b :=
  Option.isSome_iff_exists.mp ((read_isSome p fb hwf i).mpr hi)

theorem pixelByte_lt_fbSize (x y : Nat) (hx : x < 128) (hy : y < 64) : y / 8 * 128 + x < Config.hw.fbSize := by
  rw [Config.hw_fbSize]
  omega

theorem pixel_zeros (x y : Nat) (hx : x < 128) (hy : y < 64) :
    Framebuffer.pixel Config.hw (Framebuffer.zeros Config.hw) x y = some false := by
  rw [pixel_eq_map_read, read_zeros, if_pos (pixelByte_lt_fbSize x y hx hy), Option.map_some, BitVec.ofNat_eq_ofNat,
    BitVec.getLsbD_zero]

/-- What CLEAR leaves does not depend on what stood there (R131). -/
theorem exec_clear_again (s t : State) (hb : s.busy = false) (h : exec .clear s = .next t) :
    exec .clear t = .next t := by
  obtain rfl := Host.Outcome.next.inj ((exec_clear_idle s hb).symm.trans h)
  have hidle : ((s.setFb (Framebuffer.zeros Config.hw)).setStatus Status.ok).busy = false := by
    rw [State.setStatus_busy, State.setFb_busy, hb]
  rw [exec_clear_idle _ hidle, setFb_setStatus_idem]

/-- Settles O27: CLEAR leaves the buffer of zeros. -/
theorem clearZeroesEveryByte : Obligations.ClearZeroesEveryByte := by
  refine ⟨fun w payload hop => by simp [decodeFields, hop], fun s hb => ?_⟩
  obtain ⟨t, hexec, hframe, hfb⟩ := exists_next_drawn (exec_clear_idle s hb)
  refine ⟨t, hexec, hframe, ?_, ?_, exec_clear_again s t hb hexec⟩
  · rw [hfb]
    exact read_zeros Config.hw
  · rw [hfb]
    exact pixel_zeros

/-! ## CLRRECT -/

/-- The rectangle of every column and page holds every byte of a canonical buffer (R135). -/
theorem clearRect_full (p : Params) (hp : p.Valid) (fb : Framebuffer) (hwf : Framebuffer.wf p fb) :
    clearRect p 0 (p.width - 1) 0 (p.pages - 1) fb = Framebuffer.zeros p := by
  refine wf_ext p _ _ ((clearRect_keys p _ _ _ _ fb).trans hwf) (zeros_wf p) fun i => ?_
  rw [read_clearRect p _ _ _ _ fb i hp.width_pos, read_zeros]
  by_cases hi : i < p.fbSize
  · have hcol : i % p.width < p.width := Nat.mod_lt i hp.width_pos
    have hsize : i < p.pages * p.width := Params.fbSize_eq p hp ▸ hi
    have hpage : i / p.width < p.pages := (Nat.div_lt_iff_lt_mul hp.width_pos).mpr hsize
    obtain ⟨b, hread⟩ := exists_read_eq_some p fb hwf i hi
    rw [if_pos ⟨⟨Nat.zero_le _, by omega⟩, ⟨Nat.zero_le _, by omega⟩, hsize⟩, if_pos hi, hread, Option.map_some]
  · rw [read_eq_none p fb hwf i (Nat.not_lt.mp hi), Option.map_none, ite_self, if_neg hi]

/-- While BUSY = 1 both hold (R101); otherwise both leave the buffer of zeros. -/
theorem exec_clrrect_full (s : State) (hwf : Framebuffer.wf Config.hw s.fb) :
    exec (.clrrect 0 127 0 7) s = exec .clear s := by
  cases hb : s.busy with
  | true => rw [exec, exec, execClrrect, execClear, whenIdle_busy s _ hb, whenIdle_busy s _ hb]
  | false =>
    rw [exec_clrrect_idle s hb, exec_clear_idle s hb, ← clearRect_full Config.hw Config.hw_valid s.fb hwf]
    rfl

/-- Settles O28: both loops clip their own coordinate, and together they leave `inRectangle` of the bytes 0. -/
theorem clrrectZeroesExactlyTheRectangle : Obligations.ClrrectZeroesExactlyTheRectangle := by
  refine ⟨fun w payload hop => by simp [decodeFields, hop], fun s xf xl pf pl hb => ?_, exec_clrrect_full⟩
  obtain ⟨t, hexec, hframe, hfb⟩ := exists_next_drawn (exec_clrrect_idle s hb xf xl pf pl)
  refine ⟨t, hexec, hframe, fun i => ?_⟩
  rw [hfb]
  exact read_clearRect Config.hw _ _ _ _ s.fb i Config.hw_valid.width_pos

/-! ## LOAD -/

/-- Settles O29: the sizes are compared before any byte is copied. -/
theorem loadReplacesOrReportsMismatch : Obligations.LoadReplacesOrReportsMismatch := by
  refine ⟨fun w payload hop => by simp [decodeFields, hop], fun s size bitmap hb hlen => ⟨?mismatch, ?full⟩⟩
  case mismatch => exact exec_load_mismatch s hb size bitmap hlen
  case full =>
    intro hsize
    obtain ⟨t, hexec, hframe, hfb⟩ := exists_next_drawn (exec_load_full s hb size bitmap hlen hsize)
    refine ⟨t, hexec, hframe, ?_⟩
    rw [hfb]
    exact read_loadBitmap Config.hw bitmap (hlen.trans hsize)

/-! ## SETPX -/

theorem boolField_eq_decide (b : Byte) : boolField b = decide (b ≠ 0) := by
  rw [boolField, bne, beq_eq_decide, decide_not]
  rfl

/-- Settles O30: out of range the buffer is kept, in range one byte is put back with one bit changed. -/
theorem setpxWritesOneBit : Obligations.SetpxWritesOneBit := by
  refine ⟨fun w payload hop => by simp [decodeFields, hop, boolField_eq_decide], fun s state x y hb => ?_⟩
  obtain ⟨t, hexec, hframe, hfb⟩ := exists_next_drawn (exec_setpx_idle s hb state x y)
  refine ⟨t, hexec, hframe, ?_⟩
  rw [hfb]
  exact ⟨setPixel_out Config.hw state _ _ s.fb, read_setPixel Config.hw state _ _ s.fb⟩

/-- The pixel put is the bit put in the byte that holds it, and that byte exists (R151). -/
theorem pixel_setPixel_same (state : Bool) (x y : Nat) (fb : Framebuffer) (hwf : Framebuffer.wf Config.hw fb)
    (hx : x < 128) (hy : y < 64) :
    Framebuffer.pixel Config.hw (setPixel Config.hw state x y fb) x y = some state := by
  have hbit : y % 8 < 8 := Nat.mod_lt y (by decide)
  obtain ⟨b, hread⟩ := exists_read_eq_some Config.hw fb hwf _ (pixelByte_lt_fbSize x y hx hy)
  rw [pixel_eq_map_read, read_setPixel Config.hw state x y fb ⟨hx, hy⟩, if_pos (by rfl), hread]
  exact congrArg some ((getLsbD_putBit state (y % 8) (y % 8) b hbit hbit).trans (if_pos rfl))

/-- Another pixel stands in another byte, or in another bit of the same byte (R63, R151). -/
theorem pixel_setPixel_other (state : Bool) (x y x' y' : Nat) (fb : Framebuffer) (hx : x < 128) (hy : y < 64)
    (hx' : x' < 128) (hne : x' ≠ x ∨ y' ≠ y) :
    Framebuffer.pixel Config.hw (setPixel Config.hw state x y fb) x' y' = Framebuffer.pixel Config.hw fb x' y' := by
  rw [pixel_eq_map_read, pixel_eq_map_read, read_setPixel Config.hw state x y fb ⟨hx, hy⟩]
  show Option.map _ (if y' / 8 * 128 + x' = y / 8 * 128 + x then _ else _) = _
  split
  case isTrue hsame =>
    have hbit : y' % 8 ≠ y % 8 := by omega
    rw [Option.map_map]
    congr 1
    funext b
    exact (getLsbD_putBit state (y % 8) (y' % 8) b (by omega) (by omega)).trans (if_neg hbit)
  case isFalse => rfl

/-- Settles O31, law by law. -/
theorem setpxPixelLaws : Obligations.SetpxPixelLaws := by
  intro s state x y hb hwf
  refine ⟨_, exec_setpx_idle s hb state x y, fun hx hy => ⟨?same, fun x' y' hx' _ hne => ?other⟩, fun hout => ?out⟩
  case same => exact pixel_setPixel_same state _ _ s.fb hwf hx hy
  case other => exact pixel_setPixel_other state _ _ x' y' s.fb hx hy hx' hne
  case out =>
    refine setPixel_out Config.hw state _ _ s.fb ?_
    rw [Config.hw_width, Config.hw_height]
    omega

end Sys2Proof.Proofs
end

section
/-! The binary32 operand: its fields in plain arithmetic, and the rounding of the product (41_glyph.md R190, R191). -/

namespace Sys2Proof.Proofs

open Sys2Proof Sys2Proof.Machine

/-! ## The fields of the pattern (R190) -/

theorem f32Exponent_eq (v : Word32) : f32Exponent v = v.toNat / 2 ^ 23 % 2 ^ 8 := by
  rw [f32Exponent, BitVec.extractLsb'_toNat, Nat.shiftRight_eq_div_pow]

theorem f32Fraction_eq (v : Word32) : f32Fraction v = v.toNat % 2 ^ 23 := by
  rw [f32Fraction, BitVec.extractLsb'_toNat, Nat.shiftRight_zero]

theorem f32Sign_iff (v : Word32) : f32Sign v = true ↔ 2 ^ 31 ≤ v.toNat := by
  have hmsb : f32Sign v = v.msb := (BitVec.msb_eq_getLsbD_last v).symm
  rw [hmsb, BitVec.msb_eq_decide, decide_eq_true_iff]

/-- Settles O42: FDECODE reads nothing of the pattern but its three fields. -/
theorem fdecodeReadsBinary32 : Obligations.FdecodeReadsBinary32 := by
  intro v
  simp only [fdecode, f32Magnitude, f32Exponent_eq, f32Fraction_eq, f32Sign_iff]

/-! ## What FDECODE answers -/

section
variable (v : Word32)

theorem fdecode_notFinite (he : f32Exponent v = 255) : fdecode v = .error .floatNotFinite := if_pos he

variable (he : f32Exponent v ≠ 255)
include he

theorem fdecode_negative (hneg : f32Sign v = true ∧ f32Magnitude v ≠ 0) : fdecode v = .error .floatNegative :=
  (if_neg he).trans (if_pos hneg)

theorem fdecode_ok (hneg : ¬ (f32Sign v = true ∧ f32Magnitude v ≠ 0)) : fdecode v = .ok (f32Magnitude v) :=
  (if_neg he).trans (if_neg hneg)

end

/-! ## Rounding to 24 significant bits (R191) -/

/-- What rounding adds to the quotient by the last place `d`: 1 above half a place, and on a tie when the quotient is
odd. -/
def roundUp (x d : Nat) : Nat := if d < 2 * (x % d) ∨ (2 * (x % d) = d ∧ x / d % 2 = 1) then 1 else 0

theorem roundF32_one (x : Nat) :
    roundF32 x 1 = (x / 2 ^ f32Shift x + roundUp x (2 ^ f32Shift x)) * 2 ^ f32Shift x := by
  simp only [roundF32, roundUp, Nat.div_one, Nat.one_mul]

theorem roundUp_cases (x d : Nat) :
    (roundUp x d = 1 ∧ (d < 2 * (x % d) ∨ (2 * (x % d) = d ∧ x / d % 2 = 1))) ∨
      (roundUp x d = 0 ∧ ¬ (d < 2 * (x % d) ∨ (2 * (x % d) = d ∧ x / d % 2 = 1))) := by
  rw [roundUp]
  split
  case isTrue hup => exact .inl ⟨rfl, hup⟩
  case isFalse hdown => exact .inr ⟨rfl, hdown⟩

/-- The quotient by the last place kept fits 24 bits. -/
theorem div_f32Shift_lt (x : Nat) : x / 2 ^ f32Shift x < 2 ^ 24 := by
  rw [Nat.div_lt_iff_lt_mul (Nat.two_pow_pos _), ← pow_add]
  refine (Nat.lt_log2_self).trans_le (Nat.pow_le_pow_right (by decide) ?_)
  rw [f32Shift]
  omega

/-- It has all 24 bits when a place is dropped. -/
theorem le_div_f32Shift (x : Nat) (hk : f32Shift x ≠ 0) : 2 ^ 23 ≤ x / 2 ^ f32Shift x := by
  rw [Nat.le_div_iff_mul_le (Nat.two_pow_pos _), ← pow_add]
  rw [f32Shift] at hk ⊢
  have hx : x ≠ 0 := by
    rintro rfl
    exact hk (by simp)
  rw [show 23 + (Nat.log2 x - 23) = Nat.log2 x by omega]
  exact Nat.log2_self_le hx

/-- No value of 24 significant bits lies strictly between two neighbouring multiples of the place `2 ^ k`, when the
lower one has all 24 bits or the place is one unit: a finer value is below the lower one, a coarser one is itself a
multiple. -/
theorem sig24_le_or_le (q k m j : Nat) (hq : k = 0 ∨ 2 ^ 23 ≤ q) (hm : m < 2 ^ 24) :
    m * 2 ^ j ≤ q * 2 ^ k ∨ (q + 1) * 2 ^ k ≤ m * 2 ^ j := by
  by_cases hj : k ≤ j
  case pos =>
    obtain ⟨i, rfl⟩ := Nat.exists_eq_add_of_le' hj
    rw [pow_add, ← mul_assoc]
    obtain h | h := le_or_gt (m * 2 ^ i) q
    · exact .inl (Nat.mul_le_mul_right _ h)
    · exact .inr (Nat.mul_le_mul_right _ h)
  case neg =>
    obtain ⟨i, rfl⟩ := Nat.exists_eq_add_of_lt (Nat.not_le.mp hj)
    have hq : 2 ^ 23 ≤ q := hq.resolve_left (by omega)
    left
    calc m * 2 ^ j ≤ 2 ^ 24 * 2 ^ j := Nat.mul_le_mul_right _ hm.le
      _ = 2 ^ 23 * 2 ^ (j + 1) := by ring
      _ ≤ q * 2 ^ (j + i + 1) := Nat.mul_le_mul hq (Nat.pow_le_pow_right (by decide) (by omega))

section
variable (x d : Nat) (hd : 0 < d)
include hd

/-- The rounded value is no farther from `x` than the multiple of `d` below it and the one above it. -/
theorem roundUp_error (n : Nat) (hn : n ≤ x / d * d ∨ (x / d + 1) * d ≤ n) :
    (x : Int) - ((x / d + roundUp x d) * d : Nat) ≤ |(x : Int) - (n : Nat)| ∧
      (((x / d + roundUp x d) * d : Nat) : Int) - x ≤ |(x : Int) - (n : Nat)| := by
  have hx : x / d * d + x % d = x := Nat.div_add_mod' x d
  have hr : x % d < d := Nat.mod_lt x hd
  have habs := le_abs_self ((x : Int) - (n : Nat))
  have habs' := neg_le_abs ((x : Int) - (n : Nat))
  rw [add_mul, one_mul] at hn
  rw [add_mul]
  obtain ⟨hup, hfar⟩ | ⟨hdown, hnear⟩ := roundUp_cases x d
  · rw [hup]
    omega
  · rw [hdown]
    omega

/-- A tie goes to the even multiple. -/
theorem roundUp_tie
    (htie : 2 * x = 2 * ((x / d + roundUp x d) * d) + d ∨ 2 * x + d = 2 * ((x / d + roundUp x d) * d)) :
    (x / d + roundUp x d) % 2 = 0 := by
  have hx : x / d * d + x % d = x := Nat.div_add_mod' x d
  have hr : x % d < d := Nat.mod_lt x hd
  rw [add_mul] at htie
  obtain ⟨hup, hodd⟩ | ⟨hdown, heven⟩ := roundUp_cases x d
  · rw [hup] at htie ⊢
    omega
  · rw [hdown] at htie ⊢
    omega

end

/-- Settles O43: the result is the quotient by the last place, rounded; with all 24 bits it may round up to 2^24. -/
theorem productRoundsToNearestEven : Obligations.ProductRoundsToNearestEven := by
  intro x
  have hd : 0 < 2 ^ f32Shift x := Nat.two_pow_pos _
  have hfull : f32Shift x = 0 ∨ 2 ^ 23 ≤ x / 2 ^ f32Shift x := or_iff_not_imp_left.mpr (le_div_f32Shift x)
  have hlt := div_f32Shift_lt x
  have hup : roundUp x (2 ^ f32Shift x) ≤ 1 := by
    obtain ⟨h, -⟩ | ⟨h, -⟩ := roundUp_cases x (2 ^ f32Shift x) <;> omega
  refine ⟨_, _, ?bits, roundF32_one x, ?full, fun m j hm => ?nearest, ?even⟩
  case bits => omega
  case full => exact hfull.imp_right fun h => h.trans (Nat.le_add_right _ _)
  case nearest =>
    rw [roundF32_one]
    exact roundUp_error x _ hd _ (sig24_le_or_le _ _ m j hfull hm)
  case even => exact roundUp_tie x _ hd

/-! ## Scaling (R191) and the value drawn (R192) -/

theorem f32Limit_eq : f32Limit = 2 ^ 277 := by
  rw [f32Limit, f32Unit, ← pow_add]

section
variable (p : Params) (val k : Nat)

theorem scale_exact (h : p.scaleMode = .exact) : scale p val k = .ok (val * k / 2 ^ 149) := by
  have hmode : ¬ (f32Limit ≤ f32Product val k ∧ p.scaleMode = .f32Product) := by simp [h]
  rw [scale, if_neg hmode, h]
  rfl

theorem scale_f32Product (h : p.scaleMode = .f32Product) (hlt : f32Product val k < f32Limit) :
    scale p val k = .ok (roundF32 (val * k) 1 / 2 ^ 149) := by
  rw [scale, if_neg fun hover => Nat.not_le.mpr hlt hover.1, h]
  rfl

theorem scale_overflow (h : p.scaleMode = .f32Product) (hle : f32Limit ≤ f32Product val k) :
    scale p val k = .error .scaleOverflow := if_pos ⟨hle, h⟩

end

/-- Of the parameters, N depends on SCALE_MODE alone. -/
theorem fixedValue_congr (p p' : Params) (h : p.scaleMode = p'.scaleMode) (v : Word32) (f : Nat) :
    fixedValue p v f = fixedValue p' v f := by
  simp only [fixedValue, scale, h]

/-- Settles O47. The glyph table plays no part, so each value is evaluated with an empty one. -/
theorem workedRoundings : Obligations.WorkedRoundings := by
  intro g
  have hg : ∀ mode, fixedValue (Params.reference g mode) = fixedValue (Params.reference (fun _ _ _ => 0) mode) :=
    fun mode => funext₂ (fixedValue_congr _ _ rfl)
  simp only [hg]
  refine ⟨fun mode => ?_, by decide +kernel, by decide +kernel, by decide +kernel, by decide +kernel⟩
  cases mode <;> decide +kernel

end Sys2Proof.Proofs
end

section
/-! CHARBODY byte by byte, and CHAR, STR and UINT as CHARBODY of each code in turn (41_glyph.md R170 to R185). -/

namespace Sys2Proof.Proofs

open Sys2Proof Sys2Proof.Machine

/-! ## CHARBODY (R170 to R173) -/

theorem charBody_eq_error_iff (p : Params) (c y x : Nat) (fb : Framebuffer) :
    charBody p c y x fb = .error .fontCodeOutOfRange ↔ ¬ inFont p c := by
  by_cases hc : inFont p c <;> simp [charBody, hc]

/-- Settles O35: a code of the font draws its cell, and `read_drawCell` says what a cell leaves in each byte. -/
theorem charbodyStoresItsCell : Obligations.CharbodyStoresItsCell := by
  intro p c y x fb _ hwf
  refine ⟨charBody_eq_error_iff p c y x fb, fun hlo hhi =>
    ⟨_, charBody_inFont p c y x fb ⟨hlo, hhi⟩, drawCell_wf p c y x fb hwf, ?drawn, fun i hi => ?other⟩⟩
  case drawn =>
    rintro r j _ hr hj rfl hoff hlast
    exact read_drawCell_some p c y x r j fb hwf hr hj hoff fun r' hr' hlt j' hj' => hlast r' j' hlt hr' hj'
  case other => exact read_drawCell_other p c y x fb i fun r hr j hj => hi r j hr hj

/-! ## CHARBODY of each code in turn -/

theorem charBodies_cons (p : Params) (c : Nat) (rest : List Nat) (y x : Nat) (fb : Framebuffer) (hc : inFont p c) :
    charBodies p (c :: rest) y x fb = charBodies p rest y (x + 1) (drawCell p c y x fb) := by
  rw [charBodies, charBody_inFont p c y x fb hc]

theorem charBodies_append (p : Params) (codes codes' : List Nat) (y x : Nat) (fb fb' : Framebuffer)
    (h : charBodies p codes y x fb = .ok fb') :
    charBodies p (codes ++ codes') y x fb = charBodies p codes' y (x + codes.length) fb' := by
  induction codes generalizing x fb with
  | nil =>
    obtain rfl : fb = fb' := Except.ok.inj h
    rfl
  | cons c rest ih =>
    rw [charBodies] at h
    split at h
    case h_1 hc =>
      rw [List.cons_append, charBodies, hc, List.length_cons, ← Nat.add_assoc, Nat.add_right_comm]
      exact ih (x + 1) _ h
    case h_2 => cases h

/-- Codes of the font given by their position are drawn one by one. -/
theorem charBodies_map_range (p : Params) (code : Nat → Nat) (hfont : ∀ i, inFont p (code i)) (n y x : Nat)
    (fb : Framebuffer) :
    charBodies p ((List.range n).map code) y x fb =
      .ok ((List.range n).foldl (fun fb i => drawCell p (code i) y (x + i) fb) fb) := by
  induction n with
  | zero => rfl
  | succ n ih =>
    rw [List.range_succ, List.map_append, charBodies_append p _ _ y x fb _ ih, List.foldl_append, List.length_map,
      List.length_range]
    exact charBodies_cons p (code n) [] y (x + n) _ (hfont n)

/-- The digits need no font check: their codes always have a glyph (R174). -/
theorem charBodies_decimalCodes (p : Params) (hp : p.Valid) (value n y x : Nat) (fb : Framebuffer) :
    charBodies p (decimalCodes value n) y x fb = .ok (drawDigits p y x value n fb) :=
  charBodies_map_range p (fun i => 0x30 + digit value n i) (inFont_digit p hp value n) n y x fb

theorem charBodies_text (p : Params) (text : List Byte) (y x : Nat) (fb : Framebuffer)
    (hfont : ∀ c ∈ text, inFont p c.toNat) :
    charBodies p (text.map BitVec.toNat) y x fb = .ok (drawText p text y x fb) := by
  induction text generalizing x fb with
  | nil => rfl
  | cons c rest ih =>
    rw [List.map_cons, charBodies_cons p _ _ y x fb (hfont c List.mem_cons_self),
      ih _ _ fun c hc => hfont c (List.mem_cons_of_mem _ hc), drawText]

/-! ## CHAR (R175) and STR (R180) -/

theorem finish_eq_refused_iff (s : State) (r : Except Refusal Framebuffer) (e : Refusal) :
    finish s r = .refused e ↔ r = .error e := by
  cases r <;> simp

/-- Settles O36: CHAR is `finish` of CHARBODY. -/
theorem charDrawsItsCell : Obligations.CharDrawsItsCell := by
  refine ⟨fun w payload hop => by simp [decodeFields, hop], fun s c y x hb => ⟨?refused, fun hlo hhi => ?drawn⟩⟩
  case refused =>
    rw [exec, execChar, whenIdle_idle s _ hb, finish_eq_refused_iff, charBody_eq_error_iff]
  case drawn =>
    obtain ⟨t, hexec, hframe, hfb⟩ := exists_next_drawn (exec_char_inFont c y x s hb ⟨hlo, hhi⟩)
    exact ⟨t, hexec, hframe, hfb ▸ charBody_inFont Config.hw _ _ _ s.fb ⟨hlo, hhi⟩⟩

theorem textBody_eq_error_iff (p : Params) (text : List Byte) (y x : Nat) (fb : Framebuffer) :
    textBody p text y x fb = .error .fontCodeOutOfRange ↔ ∃ c ∈ text, ¬ inFont p c.toNat := by
  by_cases hfont : ∀ c ∈ text, inFont p c.toNat
  case pos => simpa [textBody_inFont p text y x fb hfont] using hfont
  case neg => simpa [textBody, if_neg hfont] using hfont

/-- Settles O38: STR is `finish` of the text, whose codes are all checked before the first is drawn. -/
theorem strDrawsItsCharacters : Obligations.StrDrawsItsCharacters := by
  refine ⟨fun w payload hop => by simp [decodeFields, hop], fun s n y x text hb hlen => ?refused,
    fun s n y x text hb hlen hfont => ?drawn⟩
  case refused =>
    rw [exec, execStr, whenIdle_idle s _ hb, if_neg (not_not.mpr hlen), finish_eq_refused_iff, textBody_eq_error_iff]
  case drawn =>
    obtain ⟨t, hexec, hframe, hfb⟩ := exists_next_drawn (exec_str_inFont n y x text s hb hlen hfont)
    exact ⟨t, hexec, hframe, hfb ▸ charBodies_text Config.hw text _ _ s.fb hfont⟩

/-! ## UINT (R185) -/

theorem exec_uint_idle (y x n : Byte) (v : Word32) (s : State) (hb : s.busy = false) :
    exec (.uint y x n v) s =
      .next ((s.setFb (drawDigits Config.hw y.toNat x.toNat v.toNat n.toNat s.fb)).setStatus Status.ok) := by
  rw [exec, execUint, whenIdle_idle s _ hb, finish_ok]

/-- Settles O40: the digits UINT draws unchecked are the ones CHARBODY draws. -/
theorem uintDrawsItsDigits : Obligations.UintDrawsItsDigits := by
  refine ⟨fun w payload hop => by simp [decodeFields, hop], fun s y x n v hb => ?_⟩
  obtain ⟨t, hexec, hframe, hfb⟩ := exists_next_drawn (exec_uint_idle y x n v s hb)
  exact ⟨t, hexec, hframe, hfb ▸ charBodies_decimalCodes Config.hw Config.hw_valid _ _ _ _ s.fb⟩

/-- A digit shown is a digit of the value modulo `10 ^ n` (R174). -/
theorem digit_mod_pow (value n i : Nat) (hi : i < n) : digit (value % 10 ^ n) n i = digit value n i := by
  have hsplit : 10 ^ n = 10 ^ (n - 1 - i) * 10 ^ (i + 1) := by
    rw [← pow_add]
    congr 1
    omega
  rw [digit, digit, hsplit, Nat.mod_mul_right_div_self, Nat.mod_mod_of_dvd _ (dvd_pow_self 10 i.succ_ne_zero)]

theorem drawDigits_mod_pow (p : Params) (y x value n : Nat) (fb : Framebuffer) :
    drawDigits p y x (value % 10 ^ n) n fb = drawDigits p y x value n fb := by
  refine List.foldl_ext _ _ _ fun fb i hi => ?_
  rw [digit_mod_pow value n i (List.mem_range.mp hi)]

/-- Settles O41: the digits of either value are those of the common remainder; while BUSY = 1 both hold (R101). -/
theorem uintShowsTheValueModulo : Obligations.UintShowsTheValueModulo := by
  intro s y x n v v' h
  have hdraw : ∀ fb, drawDigits Config.hw y.toNat x.toNat v.toNat n.toNat fb =
      drawDigits Config.hw y.toNat x.toNat v'.toNat n.toNat fb := fun fb => by
    rw [← drawDigits_mod_pow, h, drawDigits_mod_pow]
  simp only [exec, execUint, hdraw]

end Sys2Proof.Proofs
end

section
/-! FIX13, FIX21, FIX31 and FIX30: what they draw, and what they refuse (41_glyph.md R190 to R198). -/

namespace Sys2Proof.Proofs

open Sys2Proof Sys2Proof.Machine

/-! ## The four operations -/

/-- The operations of R195 to R198 with their integer and fractional digits. -/
def fixedOps (y x : Byte) (v : Word32) : List (Instr × Nat × Nat) :=
  [(.fix13 y x v, 1, 3), (.fix21 y x v, 2, 1), (.fix31 y x v, 3, 1), (.fix30 y x v, 3, 0)]

theorem exec_fixed_idle {y x : Byte} {v : Word32} {i : Instr} {n f : Nat} (hi : (i, n, f) ∈ fixedOps y x v)
    {s : State} (hb : s.busy = false) :
    exec i s = finish s (fixBody Config.hw y.toNat x.toNat v n f s.fb) := by
  simp only [fixedOps, List.mem_cons, Prod.mk.injEq, List.not_mem_nil, or_false] at hi
  obtain ⟨rfl, rfl, rfl⟩ | ⟨rfl, rfl, rfl⟩ | ⟨rfl, rfl, rfl⟩ | ⟨rfl, rfl, rfl⟩ := hi
  all_goals exact whenIdle_idle s (fun s => finish s (fixBody Config.hw y.toNat x.toNat v _ _ s.fb)) hb

/-! ## FIXBODY (R193) -/

/-- The integer digits, the divider and the fractional digits, one after another (R193). -/
theorem charBodies_fixedCodes (rounded n f y x : Nat) (fb : Framebuffer) :
    charBodies Config.hw (fixedCodes rounded n f) y x fb = .ok (drawFixed Config.hw y x rounded n f fb) := by
  have hwhole := charBodies_decimalCodes Config.hw Config.hw_valid (rounded / 10 ^ f) n y x fb
  have hlen : (decimalCodes (rounded / 10 ^ f) n).length = n := by simp [decimalCodes]
  rw [fixedCodes, drawFixed, charBodies_append Config.hw _ _ y x fb _ hwhole, hlen]
  by_cases hf : f = 0
  case pos =>
    rw [if_pos hf, if_pos hf, hf, pow_zero, Nat.div_one]
    rfl
  case neg =>
    rw [if_neg hf, if_neg hf, ← Config.hw_dividerCode,
      charBodies_cons Config.hw _ _ y _ _ (inFont_divider Config.hw Config.hw_valid)]
    exact charBodies_decimalCodes Config.hw Config.hw_valid _ f y _ _

section
variable {p : Params} {y x : Nat} {v : Word32} {n f : Nat} {fb : Framebuffer}

theorem fixBody_of_fdecode_error {e : Refusal} (hdec : fdecode v = .error e) :
    fixBody p y x v n f fb = .error e := by
  simp only [fixBody, fixedValue, hdec]

variable {val : Nat} (hdec : fdecode v = .ok val)
include hdec

theorem fixBody_of_scale_error {e : Refusal} (hscale : scale p val (10 ^ (f + 1)) = .error e) :
    fixBody p y x v n f fb = .error e := by
  simp only [fixBody, fixedValue, hdec, hscale]

theorem fixBody_of_scale_ok {scaled : Nat} (hscale : scale p val (10 ^ (f + 1)) = .ok scaled) :
    fixBody p y x v n f fb = .ok (drawFixed p y x (roundHalfUp scaled) n f fb) := by
  simp only [fixBody, fixedValue, hdec, hscale]

end

/-! ## What is drawn, and what is refused -/

section
variable {y x : Byte} {v : Word32} {i : Instr} {n f : Nat} (hi : (i, n, f) ∈ fixedOps y x v)
  {s : State} (hb : s.busy = false)
include hi hb

theorem exec_fixed_refused {e : Refusal}
    (hbody : fixBody Config.hw y.toNat x.toNat v n f s.fb = .error e) : exec i s = .refused e := by
  rw [exec_fixed_idle hi hb, hbody, finish_error]

/-- Of the scaled operand, every digit of the value rounded half up is drawn by CHARBODY (R192, R193). -/
theorem exec_fixed_drawn {val scaled : Nat} (hdec : fdecode v = .ok val)
    (hscale : scale Config.hw val (10 ^ (f + 1)) = .ok scaled) :
    ∃ t, exec i s = .next t ∧ t = { s with fb := t.fb, status := 0x00 } ∧
      charBodies Config.hw (fixedCodes (roundHalfUp scaled) n f) y.toNat x.toNat s.fb = .ok t.fb := by
  have hexec : exec i s = .next ((s.setFb
      (drawFixed Config.hw y.toNat x.toNat (roundHalfUp scaled) n f s.fb)).setStatus Status.ok) := by
    rw [exec_fixed_idle hi hb, fixBody_of_scale_ok hdec hscale, finish_ok]
  obtain ⟨t, hnext, hframe, hfb⟩ := exists_next_drawn hexec
  exact ⟨t, hnext, hframe, hfb ▸ charBodies_fixedCodes _ n f _ _ s.fb⟩

end

/-- Settles O44: under the contract the operand decodes and, in either mode, scales. -/
theorem fixedDecimalsDrawTheRoundedValue : Obligations.FixedDecimalsDrawTheRoundedValue := by
  intro y x v i n f hi ⟨he, hneg, hproduct⟩ s hb
  have hdec := fdecode_ok v he hneg
  cases hmode : Config.hw.scaleMode with
  | exact => exact exec_fixed_drawn hi hb hdec (scale_exact _ _ _ hmode)
  | f32Product =>
    exact exec_fixed_drawn hi hb hdec (scale_f32Product _ _ _ hmode (hproduct hmode))

/-- Settles O46: FDECODE refuses, then SCALE; the cells come after both. -/
theorem fixedDecimalRefusals : Obligations.FixedDecimalRefusals := by
  intro y x v i f hif s hb
  obtain ⟨⟨i, n, f⟩, hi, heq⟩ := List.mem_map (f := fun op => (op.1, op.2.2)) (l := fixedOps y x v) |>.mp hif
  obtain ⟨rfl, rfl⟩ := Prod.mk.inj heq
  refine ⟨fun he => ?notFinite, fun he hsign hmag => ?negative, fun he hneg => ?scaled⟩
  case notFinite => exact exec_fixed_refused hi hb (fixBody_of_fdecode_error (fdecode_notFinite v he))
  case negative => exact exec_fixed_refused hi hb (fixBody_of_fdecode_error (fdecode_negative v he ⟨hsign, hmag⟩))
  case scaled =>
    have hdec := fdecode_ok v he (by simpa [imp_iff_not_or] using hneg)
    cases hmode : Config.hw.scaleMode with
    | exact =>
      obtain ⟨t, hnext, -⟩ := exec_fixed_drawn hi hb hdec (scale_exact _ _ _ hmode)
      exact ⟨t, hnext⟩
    | f32Product =>
      intro hbound
      have hover : f32Limit ≤ f32Product (f32Magnitude v) (10 ^ (f + 1)) := f32Limit_eq.trans_le hbound
      exact exec_fixed_refused hi hb (fixBody_of_scale_error hdec (scale_overflow _ _ _ hmode hover))

end Sys2Proof.Proofs
end

section
/-! Accept, by the transport's turn and by the instruction of a command byte (42_panel.md R221, R226, R230). -/

namespace Sys2Proof.Proofs

open Sys2Proof Sys2Proof.Machine

/-- Settles O9, by the shape of OUTQ: nothing queued, the last transaction, one with others behind it. -/
theorem acceptMovesTheHeadAndCompletes : Obligations.AcceptMovesTheHeadAndCompletes := by
  intro s ts hts
  rw [step_transport s ts hts]
  refine ⟨fun hq => ?_, fun t hq => ?_, fun t u q hq => ?_⟩
  · rw [accept_nil (s.setTurns ts) hq]
    rfl
  · rw [accept_last (s.setTurns ts) t hq]
    rfl
  · rw [accept_more (s.setTurns ts) t u q hq]
    rfl

/-- Accept of a transaction, whatever stands behind it: completion happens exactly when nothing does (R226). -/
theorem accept_cons (s : State) (t : Txn) (q : List Txn) (h : s.outq = t :: q) :
    accept s = { s with
      outq := q, outlog := s.outlog ++ [t]
      busy := if q = [] then false else s.busy
      opkind := if q = [] then .none else s.opkind
      pstate := if q = [] ∧ s.opkind = .init then .ready else s.pstate } := by
  cases q with
  | nil =>
    rw [accept_last s t h]
    by_cases hk : s.opkind = .init <;> simp [State.complete, State.moveOut, hk]
  | cons u q =>
    rw [accept_more s t u q h]
    simp [State.moveOut]

/-- The list of command bytes agrees with the encoder and with the decoder of the bus (R103). -/
theorem panelCommands_encode_decode :
    ∀ c ∈ panelCommands, encode c.1 = .panel c.2 ∧ decodePanel c.2 = .ok c.1 := by decide

/-- Settles O10: each instruction is Accept of its own byte, and holds when another transaction is at the head. -/
theorem commandBytesAreAccepted : Obligations.CommandBytesAreAccepted := by
  intro i b hib
  obtain ⟨hencode, hdecode⟩ := panelCommands_encode_decode (i, b) hib
  refine ⟨hencode, fun s q hq => ?_, fun s hhead => ?_⟩
  · have hhead : s.outq.head? = some (Txn.cmd b) := by rw [hq, List.head?_cons]
    rw [exec_panel b i s hdecode, acceptCommand_head s b hhead, accept_cons s (Txn.cmd b) q hq]
  · rw [exec_panel b i s hdecode, acceptCommand_hold s b hhead]

end Sys2Proof.Proofs
end

section
/-! What INIT and FLUSH queue: the list of a FLUSH page by page, and the start of both operations (42_panel.md R222 to
R225). -/

namespace Sys2Proof.Proofs

open Sys2Proof Sys2Proof.Machine

/-! ## The start of an operation -/

/-- An operation that starts leaves its buffer and its queue, BUSY = 1 and STATUS = OK, and nothing else changes (R101).
Buffer and queue are variables here, so that no proof compares two of them element by element. -/
theorem exists_next_started {o : Outcome} {s : State} {kind : OpKind} {fb : Framebuffer} {q : List Txn}
    (h : o = start s kind fb q) :
    ∃ t, o = .next t ∧ t = { s with fb := t.fb, status := 0x00, busy := true, opkind := kind, outq := t.outq } ∧
      t.fb = fb ∧ t.outq = q := ⟨_, h, rfl, rfl, rfl⟩

section
variable (s : State) (hb : s.busy = false)
include hb

theorem exec_init_idle (bus inv : Bool) (contrast precharge : Byte) :
    exec (.init bus inv contrast precharge) s =
      start s .init (Framebuffer.zeros Config.hw) (initTxns Config.hw bus inv contrast precharge) := by
  rw [exec, execInit, whenIdle_idle s _ hb]

theorem exec_flush_idle : exec .flush s = start s .flush s.fb (flushTxns Config.hw s.fb) := by
  rw [exec, execFlush, whenIdle_idle s _ hb]

end

/-! ## INIT (R222, R223) -/

theorem decodeFields_init (w : OpWord) (payload : List Byte) (hop : opField w = 0x01) :
    decodeFields w payload =
      .init (decide (aField w ≠ 0)) (decide (bField w ≠ 0)) (cField w) (dField w) := by
  simp only [decodeFields, hop, boolField_eq_decide]
  rfl

/-- BusInit, 25 command bytes and the 56 transactions of a flush (R223). -/
theorem initTxns_hw_length (bus inv : Bool) (contrast precharge : Byte) :
    (initTxns Config.hw bus inv contrast precharge).length = if bus then 82 else 81 := by
  rw [initTxns_length, Config.hw_pages]
  cases bus <;> rfl

/-- Settles O48: INIT starts with the buffer of zeros and R223's list. -/
theorem initQueuesItsSequence : Obligations.InitQueuesItsSequence := by
  refine ⟨decodeFields_init, fun s bus inv contrast precharge hb => ?_⟩
  obtain ⟨t, hexec, hframe, hfb, hq⟩ := exists_next_started (exec_init_idle s hb bus inv contrast precharge)
  refine ⟨t, hexec, hframe, ?_, ?_, ?_⟩
  · rw [hfb]
    exact read_zeros Config.hw
  · rw [hq, initTxns_hw_length]
  · rw [hq, hfb]
    rfl

/-! ## FLUSH (R224, R225) -/

theorem decodeFields_flush (w : OpWord) (payload : List Byte) (hop : opField w = 0x0D) :
    decodeFields w payload = .flush := by
  simp [decodeFields, hop]

/-- In a concatenation of blocks of `n` elements each, block `k` stands from position `n * k` on. -/
theorem take_drop_flatMap {α β : Type} (f : α → List β) (n : Nat) (hf : ∀ a, (f a).length = n) (l : List α)
    (k : Nat) (hk : k < l.length) : ((l.flatMap f).drop (n * k)).take n = f l[k] := by
  induction l generalizing k with
  | nil => cases hk
  | cons a l ih =>
    rw [List.flatMap_cons]
    cases k with
    | zero => exact List.take_left' (hf a)
    | succ k =>
      have hskip : n * (k + 1) = (f a).length + n * k := by rw [hf a, Nat.mul_succ, Nat.add_comm]
      rw [hskip, List.drop_length_add_append]
      exact ih k (Nat.lt_of_succ_lt_succ hk)

/-- The transactions of page `page` stand from position 7*page of the list on (R224). -/
theorem take_drop_flushTxns (p : Params) (fb : Framebuffer) (page : Nat) (hpage : page < p.pages) :
    ((flushTxns p fb).drop (7 * page)).take 7 = pageTxns p fb page := by
  have hlt : page < (List.range p.pages).length := by rwa [List.length_range]
  rw [flushTxns, take_drop_flatMap _ 7 (pageTxns_length p fb) _ page hlt, List.getElem_range]

theorem byteIndex_lt_fbSize (p : Params) (hp : p.Valid) (x page : Nat) (hx : x < p.width) (hpage : page < p.pages) :
    byteIndex p x page < p.fbSize := by
  rw [Params.fbSize_eq p hp, byteIndex]
  calc page * p.width + x < (page + 1) * p.width := by rw [Nat.succ_mul]; omega
    _ ≤ p.pages * p.width := Nat.mul_le_mul_right _ hpage

/-- Every address of a page exists in a canonical buffer, so byte `k` of the page's data is FB's byte there (R67). -/
theorem getElem?_pageBytes (p : Params) (hp : p.Valid) (fb : Framebuffer) (hfb : Framebuffer.wf p fb) (page k : Nat)
    (hpage : page < p.pages) (hk : k < p.width) :
    (pageBytes p fb page)[k]? = Framebuffer.read fb (byteIndex p k page) := by
  have hsome : ∀ x < p.width, Framebuffer.read fb (byteIndex p x page) =
      some ((Framebuffer.read fb (byteIndex p x page)).getD 0) := by
    intro x hx
    obtain ⟨b, hread⟩ := exists_read_eq_some p fb hfb _ (byteIndex_lt_fbSize p hp x page hx hpage)
    rw [hread, Option.getD_some]
  rw [pageBytes, List.filterMap_congr fun x hx => hsome x (List.mem_range.mp hx), List.filterMap_eq_map',
    List.getElem?_map, List.getElem?_range hk, Option.map_some, ← hsome k hk]

/-- Settles O49: FLUSH starts with FB as it stands and R224's list, whose pages are `take_drop_flushTxns`. -/
theorem flushQueuesEveryPage : Obligations.FlushQueuesEveryPage := by
  refine ⟨decodeFields_flush, fun s hb hwf => ?_⟩
  obtain ⟨t, hexec, hframe, hfb, hq⟩ := exists_next_started (exec_flush_idle s hb)
  rw [hfb] at hframe
  refine ⟨t, hexec, hframe, ?_, fun page hpage => ⟨pageBytes Config.hw s.fb page, ?_, ?_, fun k hk => ?_⟩⟩
  · rw [hq, flushTxns_length, Config.hw_pages]
  · rw [hq, take_drop_flushTxns Config.hw s.fb page hpage]
    rfl
  · exact pageBytes_length Config.hw Config.hw_valid s.fb hwf page hpage
  · exact getElem?_pageBytes Config.hw Config.hw_valid s.fb hwf page k hpage hk

end Sys2Proof.Proofs
end

section
/-! The command bytes and the data bytes of a list of transactions, and how many a flush and an INIT have (42_panel.md
R232, R233). -/

namespace Sys2Proof.Proofs

open Sys2Proof Sys2Proof.Machine

/-- The byte of a mark of the tagged stream, when it has the framing `f` (R232). -/
def framedByte (f : Framing) (m : Tagged) : Option Byte :=
  match m with
  | .byte g b => if g = f then some b else none
  | .busInit => none

/-- The bytes with the framing `f` in the tagged stream of a list of transactions, in order (R232). -/
def framedBytes (f : Framing) (l : List Txn) : List Byte := (taggedStream l).filterMap (framedByte f)

/-! ## Lists of transactions -/

section
variable (f : Framing)

@[simp] theorem framedBytes_nil : framedBytes f [] = [] := rfl

@[simp] theorem framedBytes_append (l l' : List Txn) :
    framedBytes f (l ++ l') = framedBytes f l ++ framedBytes f l' := by
  simp only [framedBytes, taggedStream, List.flatMap_append, List.filterMap_append]

theorem framedBytes_cons (t : Txn) (l : List Txn) :
    framedBytes f (t :: l) = t.tagged.filterMap (framedByte f) ++ framedBytes f l := by
  rw [framedBytes, taggedStream, List.flatMap_cons, List.filterMap_append]
  rfl

/-- BusInit carries no bytes (R231). -/
@[simp] theorem framedBytes_busInit (l : List Txn) : framedBytes f (.busInit :: l) = framedBytes f l :=
  framedBytes_cons f .busInit l

/-- Every byte of a transaction has the transaction's framing (R232). -/
@[simp] theorem framedBytes_write (g : Framing) (bytes : List Byte) (l : List Txn) :
    framedBytes f (.write g bytes :: l) = (if g = f then bytes else []) ++ framedBytes f l := by
  rw [framedBytes_cons, Txn.tagged, List.filterMap_map]
  congr 1
  by_cases hg : g = f
  · rw [if_pos hg]
    exact (List.filterMap_congr fun b _ => if_pos hg).trans List.filterMap_some
  · rw [if_neg hg]
    exact List.filterMap_eq_nil_iff.mpr fun b _ => if_neg hg

theorem framedBytes_flatMap {α : Type} (g : α → List Txn) (l : List α) :
    framedBytes f (l.flatMap g) = l.flatMap fun a => framedBytes f (g a) := by
  simp only [framedBytes, taggedStream, List.flatMap_assoc, List.filterMap_flatMap]

theorem framedBytes_cmds (bytes : List Byte) :
    framedBytes f (bytes.map Txn.cmd) = if f = .command then bytes else [] := by
  induction bytes with
  | nil => simp
  | cons b bytes ih =>
    rw [List.map_cons, Txn.cmd, framedBytes_write, ih]
    cases f <;> rfl

end

/-! ## A flush -/

section
variable (p : Params) (fb : Framebuffer)

/-- Six command bytes of a page (R224). -/
theorem framedBytes_command_pageTxns_length (page : Nat) : (framedBytes .command (pageTxns p fb page)).length = 6 := by
  simp [pageTxns, Txn.cmd, Txn.data]

theorem framedBytes_data_pageTxns (page : Nat) : framedBytes .data (pageTxns p fb page) = pageBytes p fb page := by
  simp [pageTxns, Txn.cmd, Txn.data]

theorem framedBytes_command_flushTxns_length : (framedBytes .command (flushTxns p fb)).length = p.pages * 6 := by
  simp [flushTxns, framedBytes_flatMap, framedBytes_command_pageTxns_length]

/-- The data bytes are the pages one after another (R227). -/
theorem framedBytes_data_flushTxns :
    framedBytes .data (flushTxns p fb) = (List.range p.pages).flatMap (pageBytes p fb) := by
  simp only [flushTxns, framedBytes_flatMap, framedBytes_data_pageTxns]

/-- Of a canonical framebuffer there are PAGES times WIDTH. -/
theorem framedBytes_data_flushTxns_length (hp : p.Valid) (hfb : Framebuffer.wf p fb) :
    (framedBytes .data (flushTxns p fb)).length = p.pages * p.width := by
  have hpages : (List.range p.pages).map (fun page => (pageBytes p fb page).length) =
      (List.range p.pages).map fun _ => p.width :=
    List.map_congr_left fun page hpage => pageBytes_length p hp fb hfb page (List.mem_range.mp hpage)
  rw [framedBytes_data_flushTxns, List.length_flatMap, hpages, List.map_const', List.sum_replicate, List.length_range,
    smul_eq_mul]

theorem eq_zero_of_mem_pageBytes_zeros (page : Nat) (b : Byte) (h : b ∈ pageBytes p (Framebuffer.zeros p) page) :
    b = 0x00 := by
  obtain ⟨x, -, hread⟩ := List.mem_filterMap.mp h
  rw [read_zeros] at hread
  split at hread
  · exact (Option.some.inj hread).symm
  · cases hread

/-! ## An INIT -/

variable (bus inv : Bool) (contrast precharge : Byte)

/-- The command bytes of an INIT are the 25 of its sequence, and then those of the flush (R223). -/
theorem framedBytes_command_initTxns :
    framedBytes .command (initTxns p bus inv contrast precharge) =
      initSeq inv contrast precharge ++ framedBytes .command (flushTxns p (Framebuffer.zeros p)) := by
  cases bus <;> simp [initTxns, framedBytes_cmds]

/-- The data bytes of an INIT are those of the flush of a cleared buffer (R223). -/
theorem framedBytes_data_initTxns :
    framedBytes .data (initTxns p bus inv contrast precharge) =
      framedBytes .data (flushTxns p (Framebuffer.zeros p)) := by
  cases bus <;> simp [initTxns, framedBytes_cmds]

end

/-! ## The counts (R233) -/

/-- A reading of the stream that gives each mark's byte of the framing `f` gives the bytes of that framing. -/
theorem filterMap_eq_framedBytes (f : Framing) {read : Tagged → Option Byte} (h : ∀ m, read m = framedByte f m)
    (l : List Txn) : (taggedStream l).filterMap read = framedBytes f l :=
  List.filterMap_congr fun m _ => h m

/-- Settles O50, page by page for the flush; the INIT adds its 25 command bytes to the flush of zeros. -/
theorem outputByteCounts : Obligations.OutputByteCounts := by
  intro fb hfb bus inv contrast precharge commands data
  have hcommands : ∀ l, commands l = framedBytes .command l :=
    filterMap_eq_framedBytes .command fun m => by rcases m with - | ⟨- | -, b⟩ <;> rfl
  have hdata : ∀ l, data l = framedBytes .data l :=
    filterMap_eq_framedBytes .data fun m => by rcases m with - | ⟨- | -, b⟩ <;> rfl
  refine ⟨?_, ?_, ?_, ?_, fun b hb => ?_⟩
  · rw [hcommands, framedBytes_command_flushTxns_length, Config.hw_pages]
  · rw [hdata, framedBytes_data_flushTxns_length _ _ Config.hw_valid hfb, Config.hw_pages, Config.hw_width]
  · rw [hcommands, framedBytes_command_initTxns, List.length_append, initSeq_length,
      framedBytes_command_flushTxns_length, Config.hw_pages]
  · rw [hdata, framedBytes_data_initTxns, framedBytes_data_flushTxns_length _ _ Config.hw_valid (zeros_wf _),
      Config.hw_pages, Config.hw_width]
  · rw [hdata, framedBytes_data_initTxns, framedBytes_data_flushTxns] at hb
    obtain ⟨page, -, hpage⟩ := List.mem_flatMap.mp hb
    exact eq_zero_of_mem_pageBytes_zeros Config.hw page b hpage

end Sys2Proof.Proofs
end

section
/-! FLUSH and INIT from the Issue to the last Accept (30_encoding.md R101, 42_panel.md R223 to R230). -/

namespace Sys2Proof.Proofs

open Sys2Proof Sys2Proof.Machine

theorem steps_succ {s t : State} (h : step s = .next t) (k : Nat) : steps (k + 1) s = steps k t := by
  rw [steps, h]

/-- As many turns of the transport as OUTQ has transactions move them all to OUTLOG, in order, and complete the
operation (R226, R227). -/
theorem steps_accept_all (t : Txn) (q : List Txn) (s : State) (ts : List Turn) (hq : s.outq = t :: q)
    (hts : s.turns = List.replicate (t :: q).length .transport ++ ts) :
    steps (t :: q).length s = .next { s with
      outq := [], outlog := s.outlog ++ t :: q, busy := false, opkind := .none
      pstate := if s.opkind = .init then .ready else s.pstate
      turns := ts } := by
  induction q generalizing t s with
  | nil =>
    rw [List.length_singleton, steps_succ (step_transport s ts hts), accept_last (s.setTurns ts) t hq]
    rfl
  | cons u q ih =>
    rw [List.length_cons, List.replicate_succ, List.cons_append] at hts
    generalize haccepts : List.replicate (u :: q).length Turn.transport ++ ts = accepts at hts
    have hstep : step s = .next ((s.setTurns accepts).moveOut t (u :: q)) := by
      rw [step_transport s accepts hts, accept_more (s.setTurns accepts) t u q hq]
    rw [List.length_cons, steps_succ hstep, ih u _ rfl haccepts.symm, State.moveOut_outlog,
      List.append_assoc]
    rfl

/-- The idle state `s` after an operation of kind `kind` that leaves FB `fb` has delivered the transactions `q`, with
the requests `rest` and the turns `ts` left. -/
def delivered (s : State) (kind : OpKind) (fb : Framebuffer) (q : List Txn) (rest : List Request) (ts : List Turn) :
    State :=
  { s with
    fb := fb, status := 0x00, opkind := .none, outq := []
    pstate := if kind = .init then .ready else s.pstate
    outlog := s.outlog ++ q, requests := rest, turns := ts }

/-- An operation of no payload that starts with the queue `q` delivers it in one host turn and one Accept for each
transaction. -/
theorem steps_delivered (s : State) (w : OpWord) (rest : List Request) (ts : List Turn) (n : Nat) (kind : OpKind)
    (fb : Framebuffer) (q : List Txn) (hb : s.busy = false) (hlen : requiredLength w = 0)
    (hreq : s.requests = .issue ⟨w, []⟩ :: rest)
    (hts : s.turns = .host :: (List.replicate n .transport ++ ts)) (hne : q ≠ []) (hn : q.length = n)
    (hstart : ∀ s' : State, s'.busy = false → s'.fb = s.fb → exec (decodeFields w []) s' = start s' kind fb q) :
    steps (n + 1) s = .next (delivered s kind fb q rest ts) := by
  subst hn
  obtain ⟨t, q, rfl⟩ := List.exists_cons_of_ne_nil hne
  generalize haccepts : List.replicate (t :: q).length .transport ++ ts = accepts at hts
  have hdecode : decodeHost ⟨w, []⟩ = .ok (decodeFields w []) := decodeHost_ok _ hlen.symm
  have hstep : step s = start ((s.setTurns accepts).setRequests rest) kind fb (t :: q) := by
    rw [step_host s accepts hts, hostTurn_issue_idle (s.setTurns accepts) rest _ hreq hb, issue_ok _ _ rest _ hdecode]
    exact hstart ((s.setTurns accepts).setRequests rest) hb rfl
  rw [steps_succ hstep, steps_accept_all t q _ ts rfl haccepts.symm, delivered, hb]
  rfl

theorem requiredLength_init (w : OpWord) (hop : opField w = 0x01) : requiredLength w = 0 := by
  simp [requiredLength_eq, hop]

theorem requiredLength_flush (w : OpWord) (hop : opField w = 0x0D) : requiredLength w = 0 := by
  simp [requiredLength_eq, hop]

/-- Settles O51: FLUSH starts with the flush list of FB. -/
theorem flushDeliversTheFrame : Obligations.FlushDeliversTheFrame := by
  intro s w rest ts hb hop hreq hts
  have hcount : (flushTxns Config.hw s.fb).length = 56 := by rw [flushTxns_length, Config.hw_pages]
  exact steps_delivered s w rest ts 56 .flush s.fb _ hb (requiredLength_flush w hop) hreq hts (flushTxns_ne_nil _)
    hcount fun s' hb' hfb' => by rw [decodeFields_flush w [] hop, exec_flush_idle s' hb', hfb']

/-- Settles O52: INIT starts with the buffer of zeros and its list. -/
theorem initDeliversTheSequence : Obligations.InitDeliversTheSequence := by
  intro s w rest ts n hb hop hreq hn hts
  have hcount :
      (initTxns Config.hw (decide (aField w ≠ 0)) (decide (bField w ≠ 0)) (cField w) (dField w)).length = n := by
    rw [initTxns_hw_length, hn]
    simp
  exact steps_delivered s w rest ts n .init (Framebuffer.zeros Config.hw) _ hb (requiredLength_init w hop) hreq hts
    (initTxns_ne_nil _ _ _ _) hcount fun s' hb' _ => by rw [decodeFields_init w [] hop, exec_init_idle s' hb']

end Sys2Proof.Proofs
end

section
/-! The code each accepted operation writes to STATUS (10_state.md R38, 60_exceptions.md R260, R261). -/

namespace Sys2Proof.Proofs

open Sys2Proof Sys2Proof.Machine

/-- Where `op` is accepted and answers a next state, it has written STATUS = OK. -/
def WritesOk (op : State → Outcome) : Prop :=
  ∀ s t : State, s.busy = false → op s = .next t → t.status = Status.ok

theorem finish_writesOk (body : State → Except Refusal Framebuffer) :
    WritesOk fun s => whenIdle s fun s => finish s (body s) := by
  intro s t hb h
  obtain ⟨fb, -, rfl⟩ := finish_next s t _ ((whenIdle_idle s _ hb).symm.trans h)
  rfl

theorem start_writesOk (kind : OpKind) (left : State → Framebuffer) (queue : State → List Txn) :
    WritesOk fun s => whenIdle s fun s => start s kind (left s) (queue s) := by
  intro s t hb h
  cases (whenIdle_idle s _ hb).symm.trans h
  rfl

/-- A body that runs behind a check either is refused or succeeds (R265). -/
theorem status_ok_of_checked_finish {s t : State} {broken : Prop} [Decidable broken] {e : Refusal}
    {r : Except Refusal Framebuffer} (h : (if broken then .refused e else finish s r) = Host.Outcome.next t) :
    t.status = Status.ok := by
  split at h
  · cases h
  · obtain ⟨fb, -, rfl⟩ := finish_next s t r h
    rfl

/-- A LOAD of FB_SIZE bytes is refused for its payload length, or draws (R100, R140). -/
theorem load_writesOk (size : Word32) (bitmap : List Byte) (hsize : size.toNat = Config.hw.fbSize) :
    WritesOk (exec (.load size bitmap)) := by
  intro s t hb h
  rw [exec, execLoad, whenIdle_idle s _ hb, if_neg (not_not.mpr hsize)] at h
  exact status_ok_of_checked_finish h

/-- STR is refused for its payload length, or draws (R100, R180). -/
theorem str_writesOk (n y x : Byte) (text : List Byte) : WritesOk (exec (.str n y x text)) := by
  intro s t hb h
  rw [exec, execStr, whenIdle_idle s _ hb] at h
  exact status_ok_of_checked_finish h

/-- A LOAD of the wrong size and the reserved opcodes are all that has an error to report (R261). -/
theorem decodeFields_writesOk (w : OpWord) (payload : List Byte) (hreserved : ¬ isReservedOp (opField w))
    (hmismatch : ¬ (opField w = 0x04 ∧ (vField w).toNat ≠ 1024)) : WritesOk (exec (decodeFields w payload)) := by
  rcases decodeFields_cases w payload with ⟨-, h⟩ | ⟨-, h⟩ | ⟨-, h⟩ | ⟨hop, h⟩ | ⟨-, h⟩ | ⟨-, h⟩ | ⟨-, h⟩ | ⟨-, h⟩ |
    ⟨-, h⟩ | ⟨-, h⟩ | ⟨-, h⟩ | ⟨-, h⟩ | ⟨-, h⟩ | ⟨hop, h⟩ <;> rw [h]
  · exact start_writesOk .init (fun _ => Framebuffer.zeros Config.hw) fun _ => initTxns Config.hw ..
  · exact finish_writesOk fun _ => .ok (Framebuffer.zeros Config.hw)
  · exact finish_writesOk fun s => .ok (clearRect Config.hw _ _ _ _ s.fb)
  · exact load_writesOk _ payload (not_not.mp (not_and.mp hmismatch (BitVec.eq_of_toNat_eq hop)))
  · exact finish_writesOk fun s => .ok (setPixel Config.hw _ _ _ s.fb)
  · exact finish_writesOk fun s => charBody Config.hw _ _ _ s.fb
  · exact str_writesOk _ _ _ payload
  · exact finish_writesOk fun s => .ok (drawDigits Config.hw _ _ _ _ s.fb)
  · exact finish_writesOk fun s => fixBody Config.hw _ _ _ 1 3 s.fb
  · exact finish_writesOk fun s => fixBody Config.hw _ _ _ 2 1 s.fb
  · exact finish_writesOk fun s => fixBody Config.hw _ _ _ 3 1 s.fb
  · exact finish_writesOk fun s => fixBody Config.hw _ _ _ 3 0 s.fb
  · exact start_writesOk .flush (fun s => s.fb) fun s => flushTxns Config.hw s.fb
  · exact absurd hop hreserved

/-- Settles O15: an error is raised by a reserved opcode or by LOAD, and `raise` writes STATUS alone. -/
theorem everyAcceptedOperationWritesStatus : Obligations.EveryAcceptedOperationWritesStatus := by
  intro w payload s t hb hlen h
  by_cases hreserved : isReservedOp (opField w)
  case pos =>
    rw [decodeFields_reserved w payload hreserved, exec_reserved_idle _ s hb] at h
    cases h
    exact ⟨(if_pos hreserved).symm, fun _ => rfl⟩
  rw [if_neg hreserved]
  by_cases hmismatch : opField w = 0x04 ∧ (vField w).toNat ≠ 1024
  case pos =>
    obtain ⟨hload, hsize⟩ := hmismatch
    obtain ⟨hdecode, -⟩ := loadReplacesOrReportsMismatch
    rw [requiredLength_eq, if_pos hload] at hlen
    rw [hdecode w payload hload, exec_load_mismatch s hb _ payload hlen hsize] at h
    cases h
    exact ⟨(if_pos ⟨hload, hsize⟩).symm, fun _ => rfl⟩
  case neg =>
    have hok : t.status = 0x00 := decodeFields_writesOk w payload hreserved hmismatch s t hb h
    exact ⟨by rw [if_neg hmismatch, hok], fun hne => absurd hok hne⟩

end Sys2Proof.Proofs
end

section
/-! What is refused: a step of the host whose request breaks a contract, and nothing else (60_exceptions.md R263,
R265). -/

namespace Sys2Proof.Proofs

open Sys2Proof Sys2Proof.Machine

/-- `o` is a next state where `contract` is kept and a refusal where it is broken. -/
inductive RefusedUnless (contract : Prop) (o : Outcome) : Prop
  | kept (t : State) (hkept : contract) (h : o = .next t)
  | broken (r : Refusal) (hbroken : ¬ contract) (h : o = .refused r)

section
variable {contract contract' : Prop} {o : Outcome}

theorem RefusedUnless.exists_refused_iff (h : RefusedUnless contract o) : (∃ r, o = .refused r) ↔ ¬ contract := by
  cases h with
  | kept t hkept h => simp [h, hkept]
  | broken r hbroken h => simp [h, hbroken]

theorem RefusedUnless.exists_next_iff (h : RefusedUnless contract o) : (∃ t, o = .next t) ↔ contract := by
  cases h with
  | kept t hkept h => simp [h, hkept]
  | broken r hbroken h => simp [h, hbroken]

theorem RefusedUnless.of_iff (h : RefusedUnless contract o) (hiff : contract ↔ contract') :
    RefusedUnless contract' o := propext hiff ▸ h

end

/-! ## The operations of the host port -/

section
variable (s : State) (hb : s.busy = false)
include hb

/-- The length agrees, so LOAD draws or reports SIZE_MISMATCH (R140). -/
theorem load_refusedUnless (size : Word32) (bitmap : List Byte) (hlen : bitmap.length = size.toNat) :
    RefusedUnless True (exec (.load size bitmap) s) := by
  by_cases hsize : size.toNat = Config.hw.fbSize
  · exact .kept _ trivial (exec_load_full s hb size bitmap hlen hsize)
  · exact .kept _ trivial (exec_load_mismatch s hb size bitmap hlen hsize)

theorem char_refusedUnless (c y x : Byte) :
    RefusedUnless (inFont Config.hw c.toNat) (exec (.char c y x) s) := by
  by_cases hfont : inFont Config.hw c.toNat
  · exact .kept _ hfont (exec_char_inFont c y x s hb hfont)
  · obtain ⟨hrefused, -⟩ := charDrawsItsCell.2 s c y x hb
    exact .broken _ hfont (hrefused.mpr hfont)

theorem str_refusedUnless (n y x : Byte) (text : List Byte) (hlen : text.length = n.toNat) :
    RefusedUnless (∀ c ∈ text, inFont Config.hw c.toNat) (exec (.str n y x text) s) := by
  by_cases hfont : ∀ c ∈ text, inFont Config.hw c.toNat
  · exact .kept _ hfont (exec_str_inFont n y x text s hb hlen hfont)
  · obtain ⟨-, hrefused, -⟩ := strDrawsItsCharacters
    exact .broken _ hfont ((hrefused s n y x text hb hlen).mpr (by simpa only [not_forall, exists_prop] using hfont))

/-- The checks of R190 and R191, in their order. -/
theorem fixed_refusedUnless {y x : Byte} {v : Word32} {i : Instr} {n f : Nat} (hi : (i, n, f) ∈ fixedOps y x v) :
    RefusedUnless (fixedContract v f) (exec i s) := by
  by_cases he : f32Exponent v = 255
  case pos =>
    exact .broken _ (fun ⟨hfinite, _⟩ => hfinite he)
      (exec_fixed_refused hi hb (fixBody_of_fdecode_error (fdecode_notFinite v he)))
  by_cases hneg : f32Sign v = true ∧ f32Magnitude v ≠ 0
  case pos =>
    exact .broken _ (fun ⟨_, hnonneg, _⟩ => hnonneg hneg)
      (exec_fixed_refused hi hb (fixBody_of_fdecode_error (fdecode_negative v he hneg)))
  by_cases hproduct : Config.hw.scaleMode = .f32Product → f32Product (f32Magnitude v) (10 ^ (f + 1)) < f32Limit
  case pos =>
    have hkept : fixedContract v f := ⟨he, hneg, hproduct⟩
    obtain ⟨t, hnext, -⟩ := fixedDecimalsDrawTheRoundedValue y x v i n f hi hkept s hb
    exact .kept t hkept hnext
  case neg =>
    obtain ⟨hmode, hover⟩ := Classical.not_imp.mp hproduct
    exact .broken _ (fun ⟨_, _, hwithin⟩ => hproduct hwithin) (exec_fixed_refused hi hb
      (fixBody_of_scale_error (fdecode_ok v he hneg) (scale_overflow _ _ _ hmode (Nat.le_of_not_lt hover))))

/-- Of a descriptor with the required payload length, the meaning refuses just what R265 checks last. -/
theorem decodeFields_refusedUnless (w : OpWord) (payload : List Byte) (hlen : payload.length = requiredLength w) :
    RefusedUnless (operationContract (decodeFields w payload)) (exec (decodeFields w payload) s) := by
  rcases decodeFields_cases w payload with ⟨-, h⟩ | ⟨-, h⟩ | ⟨-, h⟩ | ⟨hop, h⟩ | ⟨-, h⟩ | ⟨-, h⟩ | ⟨hop, h⟩ | ⟨-, h⟩ |
    ⟨-, h⟩ | ⟨-, h⟩ | ⟨-, h⟩ | ⟨-, h⟩ | ⟨-, h⟩ | ⟨-, h⟩ <;> rw [h]
  · exact .kept _ trivial (exec_init_idle s hb ..)
  · exact .kept _ trivial (exec_clear_idle s hb)
  · exact .kept _ trivial (exec_clrrect_idle s hb ..)
  · exact load_refusedUnless s hb _ payload (by simpa only [requiredLength, hop] using hlen)
  · exact .kept _ trivial (exec_setpx_idle s hb ..)
  · exact char_refusedUnless s hb ..
  · exact str_refusedUnless s hb _ _ _ payload (by simpa only [requiredLength, hop] using hlen)
  · exact .kept _ trivial (exec_uint_idle _ _ _ _ s hb)
  · exact fixed_refusedUnless s hb (y := aField w) (x := bField w) (n := 1) (f := 3) (by simp [fixedOps])
  · exact fixed_refusedUnless s hb (y := aField w) (x := bField w) (n := 2) (f := 1) (by simp [fixedOps])
  · exact fixed_refusedUnless s hb (y := aField w) (x := bField w) (n := 3) (f := 1) (by simp [fixedOps])
  · exact fixed_refusedUnless s hb (y := aField w) (x := bField w) (n := 3) (f := 0) (by simp [fixedOps])
  · exact .kept _ trivial (exec_flush_idle s hb)
  · exact .kept _ trivial (exec_reserved_idle _ s hb)

end

/-! ## The requests, and the step -/

/-- The port checks the payload length, then the operation its contract (R100, R265). -/
theorem issue_refusedUnless (d : Descriptor) (rest : List Request) (s : State) (hb : s.busy = false) :
    RefusedUnless (d.payload.length = requiredLength d.word ∧ operationContract (decodeFields d.word d.payload))
      (issue d rest s) := by
  by_cases hlen : d.payload.length = requiredLength d.word
  · rw [issue_ok d _ rest s (decodeHost_ok d hlen)]
    exact (decodeFields_refusedUnless (s.setRequests rest) hb d.word d.payload hlen).of_iff
      (and_iff_right hlen).symm
  · exact .broken _ (fun ⟨hlen', _⟩ => hlen hlen') (issue_error d _ rest s (decodeHost_of_length_ne d hlen))

/-- In canonical form every address below FB_SIZE reads as a byte (R61, R65). -/
theorem hostRead_refusedUnless (index : Nat) (rest : List Request) (s : State) (hwf : Framebuffer.wf Config.hw s.fb) :
    RefusedUnless (s.busy = false ∧ index < Config.hw.fbSize) (hostRead index rest s) := by
  by_cases hkept : s.busy = false ∧ index < Config.hw.fbSize
  case pos =>
    obtain ⟨b, hread⟩ := Option.isSome_iff_exists.mp ((read_isSome Config.hw s.fb hwf index).mpr hkept.2)
    exact .kept _ hkept (hostRead_byte s index rest b hkept.1 hkept.2 hread)
  case neg =>
    have hbreach : s.busy = true ∨ Config.hw.fbSize ≤ index := by
      simpa only [not_and_or, Bool.not_eq_false, Nat.not_lt] using hkept
    exact .broken _ hkept (hostRead_refused s index rest hbreach)

/-- The host's turn is refused when the request that is its oldest breaks its contract. -/
theorem hostTurn_refusedUnless (s : State) (hwf : Framebuffer.wf Config.hw s.fb) :
    RefusedUnless (∀ req rest, s.requests = req :: rest → requestContract s req) (hostTurn s) := by
  cases hreq : s.requests with
  | nil => exact .kept s (fun _ _ h => nomatch h) (hostTurn_no_request s hreq)
  | cons req rest =>
    have holdest : requestContract s req ↔ ∀ req' rest', req :: rest = req' :: rest' → requestContract s req' := by
      simp
    refine RefusedUnless.of_iff ?_ holdest
    cases req with
    | issue d =>
      cases hb : s.busy with
      | true => exact .kept s (.inl hb) (hostTurn_issue_busy s rest d hreq hb)
      | false =>
        rw [hostTurn_issue_idle s rest d hreq hb]
        exact (issue_refusedUnless d rest s hb).of_iff (by simp [requestContract, hb])
    | readByte index =>
      rw [hostTurn_readByte s rest index hreq]
      exact hostRead_refusedUnless index rest s hwf
    | readStatus => exact .kept _ trivial (hostTurn_readStatus s rest hreq)
    | writeStatus v => exact .kept _ trivial (hostTurn_writeStatus s rest v hreq)

/-- The transport and a reset break no contract (R230, R290). -/
theorem step_refusedUnless (s : State) (hwf : Framebuffer.wf Config.hw s.fb) :
    RefusedUnless (∀ ts req rest, s.turns = .host :: ts → s.requests = req :: rest → requestContract s req)
      (step s) := by
  match hts : s.turns with
  | [] => exact .kept s (fun _ _ _ h => nomatch h) (step_no_turn s hts)
  | .transport :: ts => exact .kept _ (fun _ _ _ h => nomatch h) (step_transport s ts hts)
  | .reset :: ts => exact .kept _ (fun _ _ _ h => nomatch h) (step_reset s ts hts)
  | .host :: ts =>
    rw [step_host s ts hts]
    exact (hostTurn_refusedUnless (s.setTurns ts) hwf).of_iff
      ⟨fun h _ req rest _ => h req rest, fun h req rest => h ts req rest rfl⟩

/-- Settles O22. Of the invariant only the canonical form of FB is needed. -/
theorem onlyContractViolationsAreRefused : Obligations.OnlyContractViolationsAreRefused := by
  intro s hinv
  have hstep := step_refusedUnless s hinv.fb_wf
  rw [hstep.exists_next_iff, hstep.exists_refused_iff, not_not]
  exact ⟨by simp only [not_forall, exists_prop], Iff.rfl⟩

end Sys2Proof.Proofs
end

section
/-! The state after reset, and a reset in a run (70_reset_and_hazards.md R290 to R292). -/

namespace Sys2Proof.Proofs

open Sys2Proof Sys2Proof.Machine

/-- The `n`-th draw of FB_RESET gives this block's buffer a free byte at each of its 1024 addresses (R291). -/
theorem read_resetContents_hw (n i : Nat) :
    Framebuffer.read (Framebuffer.resetContents Config.hw n) i =
      if i < 1024 then some (Config.fbReset n i) else none :=
  read_resetContents Config.hw n i

/-- STATUS = OK, BUSY = 0 and PSTATE = UNINIT read as the word 0 (R37). -/
theorem statusWord_eq_zero (s : State) (hstatus : s.status = 0x00) (hbusy : s.busy = false)
    (hpstate : s.pstate = .uninit) : statusWord s = 0x00000000 := by
  rw [statusWord, hstatus, hbusy, hpstate]
  decide

/-- Settles O20: FB is a draw of FB_RESET, in canonical form, and the block is idle with nothing queued. -/
theorem resetKeepsTheInvariant : Obligations.ResetKeepsTheInvariant where
  fb_wf := by rw [State.reset_fb]; exact resetContents_wf Config.hw 0
  status_code := .inl State.reset_status
  busy_outq := by simp
  busy_opkind := by simp
  in_flight := by simp [inFlight]

/-- Settles O23, field by field. -/
theorem stateAfterReset : Obligations.StateAfterReset := by
  refine ⟨State.reset_pstate, State.reset_status, State.reset_busy, State.reset_opkind, State.reset_outq,
    State.reset_outlog, ?_, fun i => ?_⟩
  · exact statusWord_eq_zero _ State.reset_status State.reset_busy State.reset_pstate
  · rw [State.reset_fb]
    exact read_resetContents_hw 0 i

/-- Settles O24: the turn is `resetBlock`, after the turn itself is used up. -/
theorem resetTurnRestoresTheBlock : Obligations.ResetTurnRestoresTheBlock := by
  intro s ts hts
  refine ⟨_, step_reset s ts hts, resetBlock_pstate _, resetBlock_status _, resetBlock_busy _, resetBlock_opkind _,
    resetBlock_outq _, resetBlock_outlog _, resetBlock_requests _, resetBlock_replies _, resetBlock_turns _,
    resetBlock_resets _, fun i => ?_⟩
  rw [resetBlock_fb]
  exact read_resetContents_hw (s.resets + 1) i

end Sys2Proof.Proofs
end
